-- ==== Sys2Proof/Word.lean ====
section
/-! DEFINITION. The value widths of the spec (00_scope.md R14: every value is a bit, nibble, byte, word, Block or Key). -/

namespace Sys2Proof

/-- A 4-bit value: an S-box input or output (R13). -/
abbrev Nibble := BitVec 4

/-- The byte is 8 bits (R40). -/
abbrev Byte := BitVec 8

/-- A 32-bit word, `WORD_BITS` of R5. -/
abbrev Word := BitVec 32

/-- A Block as the 128-bit integer `int(B)` of R8: Block bit `i` is bit `i`, byte `k` is bits `8k .. 8k+7`. -/
abbrev Block := BitVec 128

/-- The canonical internal Key, 32 bytes, in the numbering of R8 extended to bits 0..255. -/
abbrev Key := BitVec 256

end Sys2Proof
end

