-- ==== Sys2Proof/Machine/Operands.lean ====
section
/-! DEFINITION. The views of a Block and the word arithmetic (00_scope.md R8 to R13, 20_memory.md R43 to R46):
every operand form of the core. -/

namespace Sys2Proof.Machine

/-- `bit(B, i)` (R8). -/
def bit (B : Block) (i : Nat) : Bool := B.getLsbD i

/-- `B[k]`, byte `k` of a Block (R8). -/
def byteOf (B : Block) (k : Nat) : Byte := B.extractLsb' (8 * k) 8

/-- `nib(B, n)` (R13). -/
def nibOf (B : Block) (n : Nat) : Nibble := B.extractLsb' (4 * n) 4

/-- `word(B, k)`, little-endian (R10). -/
def wordOf (B : Block) (k : Nat) : Word := B.extractLsb' (32 * k) 32

/-- `block(X0, X1, X2, X3)` (R10): `X0` holds the Block bits 0..31. -/
def blockOf (x0 x1 x2 x3 : Word) : Block :=
  x0.setWidth 128 ||| x1.setWidth 128 <<< 32 ||| x2.setWidth 128 <<< 64 ||| x3.setWidth 128 <<< 96

/-- The integer of a byte string, byte 0 least significant: `int(B)` of R8 for any length. -/
def leNat : List Byte → Nat
  | [] => 0
  | b :: bs => b.toNat + 256 * leNat bs

/-- The first `n` bytes of an integer, byte 0 (least significant) first. -/
def leBytes : Nat → Nat → List Byte
  | 0, _ => []
  | n + 1, v => BitVec.ofNat 8 v :: leBytes n (v / 256)

/-- The operand a byte string carries (R63): byte `k` of the string is byte `k` of the operand. -/
def ofBytes (w : Nat) (bs : List Byte) : BitVec w := BitVec.ofNat w (leNat bs)

/-- The sixteen bytes of a Block, `B[0]` first (R9, R63). -/
def blockBytes (B : Block) : List Byte := leBytes 16 B.toNat

/-- The integer of a list of bits, bit 0 first (R8). -/
def bitsNat : List Bool → Nat
  | [] => 0
  | b :: bs => (if b then 1 else 0) + 2 * bitsNat bs

/-- `rotl(x, n)` (R11); only the amounts 1, 3, 5, 7, 11, 13, 22 occur. -/
def rotl (x : Word) (n : Nat) : Word := (x <<< n) ||| (x >>> (32 - n))

/-- `rotr(x, n)` (R11). -/
def rotr (x : Word) (n : Nat) : Word := (x >>> n) ||| (x <<< (32 - n))

/-- `x << n` of the linear transform (R12 (b)): the bits shifted past bit 31 are lost. -/
def shl (x : Word) (n : Nat) : Word := x <<< n

/-- `zext_32(i)` of a loop index (R12 (c)). -/
def zext32 (i : Nat) : Word := BitVec.ofNat 32 i

/-- `v mod 8` as the Euclidean remainder (R12 (d)): a box index. -/
def boxIndex (v : Int) : Fin 8 :=
  ⟨(v % 8).toNat, by omega⟩

end Sys2Proof.Machine
end

