-- ==== Sys2Proof/Config.lean ====
section
/-! DEFINITION. The build-time parameters of the core (00_scope.md R6) and the values the spec leaves without a value. -/

namespace Sys2Proof

/-- How the key schedule applies its S-box (R104; `KS_SBOX_MODE` of R6). -/
inductive KsSboxMode where
  | nibble
  | bitslice
deriving DecidableEq, Repr

/-- Eight boxes of sixteen 4-bit entries (R29, R41): the index types leave no read out of range. -/
abbrev BoxTable := Vector (Vector Nibble 16) 8

/-- A table of 128 bit indices (R29, R41). -/
abbrev BitTable := Vector (Fin 128) 128

/-- The record `Config` of R6 with the Table Set of R29 and R80.
`fp` and `sboxInv` are not free: `Config.Admitted` (R87) ties them to `ip` and `sbox`. -/
structure Config where
  /-- `IP`, InitialPermutation (R81). -/
  ip : BitTable
  /-- `FP`, FinalPermutation (R82). -/
  fp : BitTable
  /-- `SBox[0..7][0..15]` (R84). -/
  sbox : BoxTable
  /-- `SBoxInverse[0..7][0..15]` (R85). -/
  sboxInv : BoxTable
  /-- `PAD_MARKER` (R6, R91). -/
  padMarker : Byte
  /-- `KS_SBOX_MODE` (R6, R104). -/
  ksSboxMode : KsSboxMode
deriving DecidableEq, Repr

/-- What `KEY` holds after reset: R32 gives it no value and 91_not_in_source.md N17 says the bits are unspecified and not
zero, so the model names a constant without a body (DESIGN CHOICE, log entry 1). -/
opaque Config.unspecifiedKey : Key

/-- What `RK[i]` holds after reset, as `Config.unspecifiedKey` (DESIGN CHOICE, log entry 1). -/
opaque Config.unspecifiedRoundKey : Nat → Block

end Sys2Proof
end

