-- ==== Sys2Proof/Syntax.lean ====
section
/-! DEFINITION. The five commands of the core (30_encoding.md R60, R66) and the errors a command can be answered with. -/

namespace Sys2Proof

/-- One constructor per row of the opcode table (R66). The payload is the operand of R63: payload byte `k` is byte `k`. -/
inductive Instr where
  /-- CONSTRUCT128 (R92): a 16-byte master key. -/
  | construct128 (k : BitVec 128)
  /-- CONSTRUCT192 (R91): a 24-byte master key. -/
  | construct192 (k : BitVec 192)
  /-- CONSTRUCT256 (R90): a 32-byte master key. -/
  | construct256 (k : BitVec 256)
  /-- ENCRYPT (R130): the input Block. -/
  | encrypt (p : Block)
  /-- DECRYPT (R140): the input Block. -/
  | decrypt (c : Block)
deriving DecidableEq, Repr

/-- The complete list of error conditions (60_exceptions.md R150). -/
inductive CmdError where
  /-- A CONSTRUCT command byte with `klen` outside 16, 24, 32 (R151). -/
  | invalidKeyLength
  /-- A reserved command byte (R152). -/
  | illegalCommand
  /-- ENCRYPT or DECRYPT while `KEY_VALID = 0` (R153). -/
  | noKey
deriving DecidableEq, Repr

end Sys2Proof
end

