-- ==== Sys2Proof/WellFormed.lean ====
section
/-! DEFINITION. What a `Config` must satisfy to be admitted (40_table_set.md R87 (a) to (d)).
`Instr` needs no check: the payload widths of R62 are in its types and every payload value is valid (R90 to R92, R130, R140). -/

namespace Sys2Proof

/-- R87 (a), R81: `IP` is a permutation of 0..127, no value occurring twice. -/
def Config.IpPermutes (c : Config) : Prop := ∀ i j : Fin 128, c.ip.get i = c.ip.get j → i = j

/-- R87 (b), R82: `FP[IP[i]] = i` and `IP[FP[i]] = i`. -/
abbrev Config.FpInverts (c : Config) : Prop :=
  (∀ i : Fin 128, c.fp.get (c.ip.get i) = i) ∧ (∀ i : Fin 128, c.ip.get (c.fp.get i) = i)

/-- R87 (c), R84: every `SBox[b]` is a permutation of 0..15. -/
abbrev Config.BoxesPermute (c : Config) : Prop :=
  ∀ b : Fin 8, ∀ x y : Fin 16, (c.sbox.get b).get x = (c.sbox.get b).get y → x = y

/-- R87 (d), R85: `SBoxInverse[b][SBox[b][x]] = x` and `SBox[b][SBoxInverse[b][y]] = y`. -/
abbrev Config.InverseBoxes (c : Config) : Prop :=
  ∀ b : Fin 8, ∀ x : Nibble,
    (c.sboxInv.get b).get ((c.sbox.get b).get x.toFin).toFin = x ∧
      (c.sbox.get b).get ((c.sboxInv.get b).get x.toFin).toFin = x

/-- R87: an admitted `Config`. -/
structure Config.Admitted (c : Config) : Prop where
  ipPermutes : c.IpPermutes
  fpInverts : c.FpInverts
  boxesPermute : c.BoxesPermute
  inverseBoxes : c.InverseBoxes

/-- R84, R87 (e): the eight boxes are pairwise different; no rule depends on it. -/
abbrev Config.BoxesDistinct (c : Config) : Prop := ∀ a b : Fin 8, c.sbox.get a = c.sbox.get b → a = b

end Sys2Proof
end

