-- ==== Sys2Proof/Decode.lean ====
section
/-! DEFINITION. The decoder and the encoder of the command channel (30_encoding.md R61 to R69). -/

namespace Sys2Proof

/-- `op = cmd[7:6]` (R61). -/
def opField (cmd : Byte) : BitVec 2 := cmd.extractLsb' 6 2

/-- `klen = cmd[5:0]` (R61). -/
def klenField (cmd : Byte) : BitVec 6 := cmd.extractLsb' 0 6

/-- `PLEN(cmd)` (R62). -/
def plen (cmd : Byte) : Nat :=
  if opField cmd = 0 then (klenField cmd).toNat
  else if opField cmd ≠ 3 ∧ klenField cmd = 0 then 16
  else 0

/-- What the decoder makes of the command channel. -/
inductive Decoded where
  /-- No byte is there. -/
  | empty
  /-- Fewer payload bytes are there than `PLEN` (R69). -/
  | incomplete
  /-- A defined command, and the bytes after it. -/
  | command (i : Instr) (rest : List Byte)
  /-- A command byte that names no operation (R67), and the bytes after its payload. -/
  | rejected (e : CmdError) (rest : List Byte)
deriving DecidableEq, Repr

/-- The meaning of a command byte with its payload (R66): total on the 256 values (R68). -/
def interpret (cmd : Byte) (payload : List Byte) : Except CmdError Instr :=
  if opField cmd = 0 then
    if klenField cmd = 16 then .ok (.construct128 (Machine.ofBytes 128 payload))
    else if klenField cmd = 24 then .ok (.construct192 (Machine.ofBytes 192 payload))
    else if klenField cmd = 32 then .ok (.construct256 (Machine.ofBytes 256 payload))
    else .error .invalidKeyLength
  else if opField cmd = 1 ∧ klenField cmd = 0 then .ok (.encrypt (Machine.ofBytes 128 payload))
  else if opField cmd = 2 ∧ klenField cmd = 0 then .ok (.decrypt (Machine.ofBytes 128 payload))
  else .error .illegalCommand

/-- Read one command from the head of the channel (R69): one byte, then `PLEN` payload bytes. -/
def decode : List Byte → Decoded
  | [] => .empty
  | cmd :: bs =>
    if bs.length < plen cmd then .incomplete
    else
      match interpret cmd (bs.take (plen cmd)) with
      | .ok i => .command i (bs.drop (plen cmd))
      | .error e => .rejected e (bs.drop (plen cmd))

/-- The command byte of an instruction (R66). -/
def commandByte : Instr → Byte
  | .construct128 _ => 0x10
  | .construct192 _ => 0x18
  | .construct256 _ => 0x20
  | .encrypt _ => 0x40
  | .decrypt _ => 0x80

/-- The payload bytes of an instruction, operand byte 0 first (R63). -/
def payloadBytes : Instr → List Byte
  | .construct128 k => Machine.leBytes 16 k.toNat
  | .construct192 k => Machine.leBytes 24 k.toNat
  | .construct256 k => Machine.leBytes 32 k.toNat
  | .encrypt p => Machine.leBytes 16 p.toNat
  | .decrypt c => Machine.leBytes 16 c.toNat

/-- The bytes of an instruction as they lie on the command channel (R61). -/
def encode (i : Instr) : List Byte := commandByte i :: payloadBytes i

/-- The bytes of the opcode table's numbering: the low `nbits` bits of `w` as bytes, the first byte the least significant,
then zeros, cut to the length `1 + PLEN` of the command they begin. -/
def tableBytes (nbits w : Nat) : List Byte :=
  Machine.leBytes (1 + plen (BitVec.ofNat 8 (w % 2 ^ nbits))) (w % 2 ^ nbits)

/-- The instruction the decoder reads from a word of the opcode table. -/
def decodeTableWord (nbits w : Nat) : Option Instr :=
  match decode (tableBytes nbits w) with
  | .command i _ => some i
  | _ => none

end Sys2Proof
end

