-- ==== Sys2Proof/Machine/State.lean ====
section
/-! DEFINITION. The state of the core (10_state.md), its reset value (R32) and the reasons a step can stop. -/

namespace Sys2Proof.Machine

/-- `SEQ = (phase, r)` (R26): a round counter goes only with the two round phases. -/
inductive Seq where
  /-- No command in execution. -/
  | idle
  /-- CONSTRUCT: key schedule running. -/
  | ks
  /-- ENCRYPT step 1 pending. -/
  | encIp
  /-- ENCRYPT round `r` pending. -/
  | encRound (r : Fin 32)
  /-- ENCRYPT steps 3 and 4 pending. -/
  | encFinal
  /-- DECRYPT steps 1 and 2 pending. -/
  | decIp
  /-- DECRYPT round `r` pending. -/
  | decRound (r : Fin 32)
  /-- DECRYPT step 4 pending. -/
  | decFinal
deriving DecidableEq, Repr

/-- The operand of the command in execution (R24), until the sequencer's first line has read it (log entry 3). -/
inductive Operand where
  /-- No command in execution, or its operand has been read. -/
  | none
  /-- A CONSTRUCT's canonical Key `K32` (R90 to R92). -/
  | key (k32 : Key)
  /-- The input Block of an ENCRYPT or DECRYPT. -/
  | block (b : Block)
deriving DecidableEq, Repr

/-- Everything the spec gives the machine. The Table Set is constant (R29) and stands in `Config`; the prekey words are
locals of the key schedule (R23); there is no addressed memory (R50) and no control or status register (R28). -/
structure State where
  /-- `KEY` (R20). -/
  key : Key
  /-- `RK[0..32]` (R21). -/
  rk : Vector Block 33
  /-- `KEY_VALID` (R27). -/
  keyValid : Bool
  /-- `TEMP` (R22): `none` is the spec's own 'no value' between commands (log entry 2). -/
  temp : Option Block
  /-- `SEQ` (R26). -/
  seq : Seq
  /-- The operand buffer of R24 (DESIGN CHOICE, log entry 3). -/
  operand : Operand
  /-- The command channel (R40): the bytes received and not yet executed, oldest first. -/
  cmdChan : List (BitVec 8)
  /-- The response channel (R40): the bytes produced and not yet taken, oldest first. -/
  respChan : List (BitVec 8)
  /-- The reset input (R170), sampled by the next step (DESIGN CHOICE, log entry 7). -/
  resetLine : Bool
deriving DecidableEq, Repr

/-- Why a step does not give a next state without refusing. -/
inductive Fault where
  /-- Raised by `runCommand` when the command channel is empty: the core waits for a command byte and the run is over (R180;
  DESIGN CHOICE, log entry 6).
  Safe: the hardware has no step either until a byte arrives. -/
  | quiescent
  /-- Raised by `runCommand` when bytes of the command at the head of the channel are missing: the core has no step until
  they arrive (R69, U15; DESIGN CHOICE, log entry 6). Safe: the hardware has no step either. -/
  | awaitingPayload
  /-- Raised by `advance` when a sequencer line would read `TEMP` or the operand while it holds no value (R22, U11).
  Safe: no run reaches it (`Sys2Proof.Safety.Inv`), and the spec forbids the read. -/
  | noValue
deriving DecidableEq, Repr

/-- Why an instruction has no meaning in the model. -/
inductive Refusal where
  /-- For an arm of `exec` whose instruction has no meaning in the model: no arm raises it. Safe: it only stops. -/
  | notModelled (mnemonic : String)
deriving DecidableEq, Repr

/-- The state right after reset (R32, R170). `KEY` and `RK` are without value there: the model names the constants of log
entry 1. -/
def State.reset : State where
  key := Config.unspecifiedKey
  rk := Vector.ofFn fun i => Config.unspecifiedRoundKey i.val
  keyValid := false
  temp := none
  seq := .idle
  operand := .none
  cmdChan := []
  respChan := []
  resetLine := false

end Sys2Proof.Machine
end

