-- ==== Sys2Proof/Machine/Ops.lean ====
section
/-! DEFINITION. The named operations on the state: responses, error entry, command acceptance, the reset event, and what
the outside can do on the channels. -/

namespace Sys2Proof.Machine

/-- `respond(status, data)` (R14, R64): append one response to the response channel. -/
def respond (st : Byte) (data : List Byte) (s : State) : State :=
  { s with respChan := s.respChan ++ st :: data }

/-- Status OK (R65). -/
def stOk : Byte := 0x00

/-- Status OK_DATA (R65). -/
def stOkData : Byte := 0x01

/-- The status byte of an error (R65, R150). -/
def errorStatus : CmdError → Byte
  | .invalidKeyLength => 0x81
  | .illegalCommand => 0x82
  | .noKey => 0x83

/-- `RLEN(st)` (R64): how many data bytes follow a status byte. -/
def rlen (st : Byte) : Nat := if st = stOkData then 16 else 0

/-- `raise <Error>` (R14, R156), the one error entry: nothing is saved and nothing written, one response of the status byte
alone is produced and `SEQ` is IDLE afterwards. The payload has been consumed by then (`runCommand`). There is no handler,
hence no return from an error (R157). That a rejected command changes nothing is a named blind spot of the spec (log entry 9). -/
def raise (e : CmdError) (s : State) : State :=
  { respond (errorStatus e) [] s with seq := .idle }

/-- A command is accepted: its operand is buffered (R24) and `SEQ` enters the command's first phase (R26). -/
def accept (phase : Seq) (x : Operand) (s : State) : State := { s with seq := phase, operand := x }

/-- The reset event (R170, R171), at any moment: a command in flight is abandoned, both channels are emptied. -/
def resetEvent (_ : State) : State := .reset

/-- What the outside can do to the core (R40, R170, R180). -/
inductive Input where
  /-- One byte arrives on the command channel. -/
  | byte (b : Byte)
  /-- The requester takes the oldest byte of the response channel, if there is one. -/
  | take
  /-- The reset input is asserted. -/
  | reset
deriving DecidableEq, Repr

/-- The state after an input; inputs land between two steps (DESIGN CHOICE, log entry 7). -/
def applyInput (x : Input) (s : State) : State :=
  match x with
  | .byte b => { s with cmdChan := s.cmdChan ++ [b] }
  | .take => { s with respChan := s.respChan.drop 1 }
  | .reset => { s with resetLine := true }

end Sys2Proof.Machine
end

