-- ==== Sys2Proof/Machine/Flags.lean ====
section
/-! DEFINITION. `KEY_VALID`, the only flag (10_state.md R27): no command computes a condition code. -/

namespace Sys2Proof.Machine

/-- `KEY_VALID` is set by every successful CONSTRUCT and cleared only by reset (R27). -/
def setKeyValid (s : State) : State := { s with keyValid := true }

/-- ENCRYPT and DECRYPT need an engine context (R153): `f` runs with `KEY_VALID = 1`, otherwise the command raises NoKey. -/
def withKeyValid (s : State) (f : State → Host.Outcome State Fault Refusal) : Host.Outcome State Fault Refusal :=
  if s.keyValid then f s else .next (raise .noKey s)

end Sys2Proof.Machine
end

