-- ==== Sys2Proof/Machine/Substitution.lean ====
section
/-! DEFINITION. The S-box layer, its inverse and the bit-sliced form (43_substitution.md). -/

namespace Sys2Proof.Machine

/-- One byte of R110: the low and the high nibble are looked up apart, the low one staying low. -/
def subByte (table : Nibble → Nibble) (x : Byte) : Byte :=
  (table (x.extractLsb' 0 4)).setWidth 8 ||| (table (x.extractLsb' 4 4)).setWidth 8 <<< 4

/-- `SubLayer(b, B)` (R110). -/
def subLayer (c : Config) (b : Fin 8) (B : Block) : Block :=
  ofBytes 128 ((blockBytes B).map (subByte (sboxRead c b)))

/-- `InvSubLayer(b, B)` (R111). -/
def invSubLayer (c : Config) (b : Fin 8) (B : Block) : Block :=
  ofBytes 128 ((blockBytes B).map (subByte (sboxInvRead c b)))

/-- The 4-bit value at position `j` of the four words (R114), `X0` giving its least significant bit. -/
def sliceOf (B : Block) (j : Nat) : Nibble :=
  BitVec.ofNat 4 (bitsNat [(wordOf B 0).getLsbD j, (wordOf B 1).getLsbD j, (wordOf B 2).getLsbD j, (wordOf B 3).getLsbD j])

/-- Word `k` of R114's result: bit `j` is bit `k` of the substituted slice `j`. -/
def slicedWord (c : Config) (b : Fin 8) (B : Block) (k : Nat) : Word :=
  BitVec.ofNat 32 (bitsNat ((List.range 32).map fun j => (sboxRead c b (sliceOf B j)).getLsbD k))

/-- `SubBitslice(b, B)` (R114). -/
def subBitslice (c : Config) (b : Fin 8) (B : Block) : Block :=
  blockOf (slicedWord c b B 0) (slicedWord c b B 1) (slicedWord c b B 2) (slicedWord c b B 3)

end Sys2Proof.Machine
end

