-- ==== Sys2Proof/Machine/KeySchedule.lean ====
section
/-! DEFINITION. The key-schedule expander (42_key_schedule.md). The prekey words are locals of the function (R23). -/

namespace Sys2Proof.Machine

/-- PHI (R5, R101). -/
def phi : Word := 0x9E3779B9

/-- Key word `w[-8 + k]` (R100): key bytes `4k .. 4k+3`, little-endian. -/
def keyWord (K : Key) (k : Nat) : Word := K.extractLsb' (32 * k) 32

/-- One step of the recurrence (R101) from the taps `w[i-8]`, `w[i-5]`, `w[i-3]`, `w[i-1]`. -/
def prekey (i : Nat) (w8 w5 w3 w1 : Word) : Word :=
  rotl (w8 ^^^ w5 ^^^ w3 ^^^ w1 ^^^ phi ^^^ zext32 i) 11

/-- The `n` words from `w[i]` on (R101), `a` to `h` being `w[i-8]` to `w[i-1]`. -/
def prekeysFrom : Nat → Nat → Word → Word → Word → Word → Word → Word → Word → Word → List Word
  | 0, _, _, _, _, _, _, _, _, _ => []
  | n + 1, i, a, b, c, d, e, f, g, h =>
    prekey i a d f h :: prekeysFrom n (i + 1) b c d e f g h (prekey i a d f h)

/-- `w[0..131]` (R101). -/
def prekeys (K : Key) : List Word :=
  prekeysFrom 132 0 (keyWord K 0) (keyWord K 1) (keyWord K 2) (keyWord K 3)
    (keyWord K 4) (keyWord K 5) (keyWord K 6) (keyWord K 7)

/-- The chunks `K[i]` as Blocks, four consecutive words each (R102). -/
def chunks : List Word → List Block
  | w0 :: w1 :: w2 :: w3 :: ws => blockOf w0 w1 w2 w3 :: chunks ws
  | _ => []

/-- `kbox(i) = (7 - (i+4)) mod 8` (R103). -/
def kbox (i : Nat) : Fin 8 := boxIndex (7 - ((i : Int) + 4))

/-- `RoundKey(i)` from its chunk (R104). -/
def roundKey (c : Config) (i : Nat) (chunk : Block) : Block :=
  match c.ksSboxMode with
  | .nibble => subLayer c (kbox i) chunk
  | .bitslice => subBitslice c (kbox i) chunk

/-- The round keys in order (R105). -/
def roundKeys (c : Config) (K : Key) : List Block := (chunks (prekeys K)).mapIdx (roundKey c)

theorem length_prekeysFrom (n i : Nat) (a b c d e f g h : Word) : (prekeysFrom n i a b c d e f g h).length = n := by
  induction n generalizing i a b c d e f g h with
  | zero => rfl
  | succ n ih => simp [prekeysFrom, ih]

theorem length_prekeys (K : Key) : (prekeys K).length = 4 * 33 := by
  unfold prekeys
  exact length_prekeysFrom ..

theorem length_chunks (n : Nat) (ws : List Word) (h : ws.length = 4 * n) : (chunks ws).length = n := by
  induction n generalizing ws with
  | zero => simp_all [chunks]
  | succ n ih =>
    match ws, h with
    | _ :: _ :: _ :: _ :: ws, h => simpa [chunks] using ih ws (by simp at h; omega)

theorem length_roundKeys (c : Config) (K : Key) : (roundKeys c K).length = 33 := by
  rw [roundKeys, List.length_mapIdx, length_chunks 33 _ (length_prekeys K)]

/-- `KeySchedule(K32)` (R105): the 33 round keys. -/
@[irreducible] def keySchedule (c : Config) (K : Key) : Vector Block 33 :=
  ⟨(roundKeys c K).toArray, List.size_toArray.trans (length_roundKeys c K)⟩

end Sys2Proof.Machine
end

