-- ==== Sys2Proof/Machine/LinearMixing.lean ====
section
/-! DEFINITION. The linear mixing transform, its inverse and its bit-table form (44_linear_mixing.md). -/

namespace Sys2Proof.Machine

/-- The lines of R120 on the four words, top to bottom. -/
def ltWords (x0 x1 x2 x3 : Word) : Block :=
  let x0 := rotl x0 13
  let x2 := rotl x2 3
  let x1 := x1 ^^^ x0 ^^^ x2
  let x3 := x3 ^^^ x2 ^^^ shl x0 3
  let x1 := rotl x1 1
  let x3 := rotl x3 7
  let x0 := x0 ^^^ x1 ^^^ x3
  let x2 := x2 ^^^ x3 ^^^ shl x1 7
  let x0 := rotl x0 5
  let x2 := rotl x2 22
  blockOf x0 x1 x2 x3

/-- `LT(B)` (R120). -/
def lt (B : Block) : Block := ltWords (wordOf B 0) (wordOf B 1) (wordOf B 2) (wordOf B 3)

/-- The lines of R121 on the four words, top to bottom. -/
def invLtWords (x0 x1 x2 x3 : Word) : Block :=
  let x2 := rotr x2 22
  let x0 := rotr x0 5
  let x2 := x2 ^^^ x3 ^^^ shl x1 7
  let x0 := x0 ^^^ x1 ^^^ x3
  let x3 := rotr x3 7
  let x1 := rotr x1 1
  let x3 := x3 ^^^ x2 ^^^ shl x0 3
  let x1 := x1 ^^^ x0 ^^^ x2
  let x2 := rotr x2 3
  let x0 := rotr x0 13
  blockOf x0 x1 x2 x3

/-- `InvLT(B)` (R121). -/
def invLt (B : Block) : Block := invLtWords (wordOf B 0) (wordOf B 1) (wordOf B 2) (wordOf B 3)

/-- The Block `e_i` whose only 1 bit is bit `i` (R123). -/
def unitBlock (i : Nat) : Block := 1#128 <<< i

/-- The XOR table R123 derives from a linear map: entry `(j, i)` says whether input bit `i` enters output bit `j`. -/
def xorTable (f : Block → Block) (j i : Nat) : Bool := bit (f (unitBlock i)) j

/-- A map given by its XOR table (R123): output bit `j` is the XOR of the input bits the table's row `j` names. -/
def applyXorTable (table : Nat → Nat → Bool) (B : Block) : Block :=
  BitVec.ofNat 128 (bitsNat ((List.range 128).map fun j =>
    (List.range 128).foldl (fun acc i => acc ^^ (table j i && bit B i)) false))

end Sys2Proof.Machine
end

