-- ==== Sys2Proof/Machine/Rounds.lean ====
section
/-! DEFINITION. The round functions and the two cipher sequences as functions (45_encrypt.md, 46_decrypt.md). -/

namespace Sys2Proof.Machine

/-- `EncRound(r, T)` (R131). -/
def encRound (c : Config) (rk : Vector Block 33) (r : Fin 32) (T : Block) : Block :=
  let U := T ^^^ rk.get r.castSucc
  let V := subLayer c (boxIndex r.val) U
  if r.val < 31 then lt V else V

/-- `DecRound(r, T)` (R141). -/
def decRound (c : Config) (rk : Vector Block 33) (r : Fin 32) (T : Block) : Block :=
  let V := if r.val < 31 then invLt T else T
  let U := invSubLayer c (boxIndex r.val) V
  U ^^^ rk.get r.castSucc

/-- `TEMP` of an ENCRYPT after its first `n` rounds (step 2 of R130). -/
def encTemp (c : Config) (rk : Vector Block 33) (P : Block) (n : Nat) : Block :=
  ((List.finRange 32).take n).foldl (fun T r => encRound c rk r T) (permute c.ip P)

/-- `TEMP` of a DECRYPT after its first `n` rounds, which are 31, 30, .. (step 3 of R140). -/
def decTemp (c : Config) (rk : Vector Block 33) (C : Block) (n : Nat) : Block :=
  ((List.finRange 32).reverse.take n).foldl (fun T r => decRound c rk r T) (permute c.ip C ^^^ rk.get 32)

/-- The result of R130 as one expression: `IP`, the rounds 0 to 31, the final key, `FP`. -/
def encryptBlock (c : Config) (rk : Vector Block 33) (P : Block) : Block :=
  permute c.fp (encTemp c rk P 32 ^^^ rk.get 32)

/-- The result of R140 as one expression: `IP`, the final key, the rounds 31 down to 0, `FP`. -/
def decryptBlock (c : Config) (rk : Vector Block 33) (C : Block) : Block :=
  permute c.fp (decTemp c rk C 32)

end Sys2Proof.Machine
end

