-- ==== Sys2Proof/Machine/Sequencer.lean ====
section
/-! DEFINITION. The sequencer (10_state.md R26): one line of R93, R134 or R144 at a time. -/

namespace Sys2Proof.Machine

/-- `CompleteConstruct(K32)` (R93): the round keys, the Key and the flag are written together (R48) and OK is answered. -/
def completeConstruct (k32 : Key) (s : State) : State :=
  setKeyValid { respond stOk [] s with key := k32, rk := keySchedule config k32, seq := .idle, operand := .none }

/-- The phase after encryption round `r` (R134). -/
def seqAfterEnc (r : Fin 32) : Seq := if h : r.val < 31 then .encRound ⟨r.val + 1, by omega⟩ else .encFinal

/-- The phase after decryption round `r` (R144). -/
def seqAfterDec (r : Fin 32) : Seq := if 0 < r.val then .decRound ⟨r.val - 1, by omega⟩ else .decFinal

/-- The end of an ENCRYPT or DECRYPT (last lines of R134, R144): the response, `TEMP` without value, `SEQ` IDLE. -/
def finishCipher (out : Block) (s : State) : State :=
  { respond stOkData (blockBytes out) s with temp := none, seq := .idle }

/-- One line of the running command. In IDLE no command runs and nothing changes. -/
def advance (s : State) : Host.Outcome State Fault Refusal :=
  match s.seq, s.operand, s.temp with
  | .idle, _, _ => .next s
  | .ks, .key k32, _ => .next (completeConstruct k32 s)
  | .encIp, .block p, _ =>
    .next { s with temp := some (permute config.ip p), operand := .none, seq := .encRound 0 }
  | .encRound r, _, some t => .next { s with temp := some (encRound config s.rk r t), seq := seqAfterEnc r }
  | .encFinal, _, some t => .next (finishCipher (permute config.fp (t ^^^ s.rk.get 32)) s)
  | .decIp, .block c, _ =>
    .next { s with temp := some (permute config.ip c ^^^ s.rk.get 32), operand := .none, seq := .decRound 31 }
  | .decRound r, _, some t => .next { s with temp := some (decRound config s.rk r t), seq := seqAfterDec r }
  | .decFinal, _, some t => .next (finishCipher (permute config.fp t) s)
  | _, _, _ => .fault .noValue

/-- `n` lines in a row: a command runs to completion as one transition (R48, R51). -/
def runSeq : Nat → State → Host.Outcome State Fault Refusal
  | 0, s => .next s
  | n + 1, s =>
    match advance s with
    | .next s' => runSeq n s'
    | .fault f => .fault f
    | .refused r => .refused r

end Sys2Proof.Machine
end

