-- ==== Sys2Proof/Machine/Cipher.lean ====
section
/-! DEFINITION. ENCRYPT and DECRYPT (45_encrypt.md, 46_decrypt.md), each run through its 34 sequencer steps as one
transition (DESIGN CHOICE, log entry 4). -/

namespace Sys2Proof.Machine

/-- ENCRYPT (R130, R134). -/
def execEncrypt (p : Block) (s : State) : Host.Outcome State Fault Refusal :=
  withKeyValid s fun s => runSeq 34 (accept .encIp (.block p) s)

/-- DECRYPT (R140, R144). -/
def execDecrypt (c : Block) (s : State) : Host.Outcome State Fault Refusal :=
  withKeyValid s fun s => runSeq 34 (accept .decIp (.block c) s)

end Sys2Proof.Machine
end

