-- ==== Sys2Proof/Machine/Construct.lean ====
section
/-! DEFINITION. CONSTRUCT128, CONSTRUCT192 and CONSTRUCT256 (41_key_construction.md). -/

namespace Sys2Proof.Machine

/-- The padded Key of a master key of `n < 32` bytes (R91, R92): `k ++ [PAD_MARKER] ++ zeros(31 - n)`. -/
@[irreducible] def padKey (c : Config) (n : Nat) (k : BitVec w) : Key :=
  ofBytes 256 (leBytes n k.toNat ++ c.padMarker :: List.replicate (31 - n) 0)

/-- The common run of the three commands: the Key is buffered, then the one line of phase KS (R93) executes. -/
def construct (k32 : Key) (s : State) : Host.Outcome State Fault Refusal := runSeq 1 (accept .ks (.key k32) s)

/-- CONSTRUCT128 (R92). -/
def execConstruct128 (k : BitVec 128) (s : State) : Host.Outcome State Fault Refusal :=
  construct (padKey config 16 k) s

/-- CONSTRUCT192 (R91). -/
def execConstruct192 (k : BitVec 192) (s : State) : Host.Outcome State Fault Refusal :=
  construct (padKey config 24 k) s

/-- CONSTRUCT256 (R90): the 32 bytes are copied verbatim. -/
def execConstruct256 (k : BitVec 256) (s : State) : Host.Outcome State Fault Refusal := construct k s

end Sys2Proof.Machine
end

