-- ==== Sys2Proof/Machine/Dispatch.lean ====
section
/-! DEFINITION. The dispatch: one arm per row of the opcode table (30_encoding.md R66). -/

namespace Sys2Proof.Machine

def exec (i : Instr) (s : State) : Host.Outcome State Fault Refusal :=
  match i with
  | .construct128 k => Sys2Proof.Machine.execConstruct128 k s
  | .construct192 k => Sys2Proof.Machine.execConstruct192 k s
  | .construct256 k => Sys2Proof.Machine.execConstruct256 k s
  | .encrypt p => Sys2Proof.Machine.execEncrypt p s
  | .decrypt c => Sys2Proof.Machine.execDecrypt c s

end Sys2Proof.Machine
end

