-- ==== Sys2Proof/Machine/Control.lean ====
section
/-! DEFINITION. What the idle core does with its command channel (30_encoding.md R69, 60_exceptions.md R150 to R156). -/

namespace Sys2Proof.Machine

/-- Decode the head of the command channel; a complete command is consumed and executed or rejected, an incomplete one is
waited for (R69). -/
def runCommand (s : State) : Host.Outcome State Fault Refusal :=
  match decode s.cmdChan with
  | .empty => .fault .quiescent
  | .incomplete => .fault .awaitingPayload
  | .command i rest => exec i { s with cmdChan := rest }
  | .rejected e rest => .next (raise e { s with cmdChan := rest })

/-- Put bytes where the next step fetches its command: at the head of the command channel, the core idle and not in reset. -/
def placeCommand (bs : List Byte) (s : State) : State :=
  { s with cmdChan := bs ++ s.cmdChan, seq := .idle, resetLine := false }

end Sys2Proof.Machine
end

