-- ==== Sys2Proof/Machine/Step.lean ====
section
/-! DEFINITION. One step of the core. -/

namespace Sys2Proof.Machine

/-- Reset comes first, at any moment (R170); a running command goes on with its next line (R134, R144); the idle core takes
the next command (R51, R69). -/
def step (s : State) : Host.Outcome State Fault Refusal :=
  if s.resetLine then .next (resetEvent s)
  else if s.seq = .idle then runCommand s
  else advance s

/-- `s` with the instruction of a word of the opcode table as the next command (log entry 5). -/
def State.withFetchWord (s : State) (nbits w : Nat) : State := placeCommand (tableBytes nbits w) s

end Sys2Proof.Machine
end

