-- ==== Sys2Proof/Machine/Assembler.lean ====
section
/-! DEFINITION. The assembler notation of the spec (30_encoding.md R70, R71), from the digits on: a line's hex digits, two a byte,
byte 0 first. It is a notation for test programs and no property of the hardware (D28; log entry 11). -/

namespace Sys2Proof.Machine

/-- A line of R70. -/
inductive AsmLine where
  | construct128 (digits : List Nibble)
  | construct192 (digits : List Nibble)
  | construct256 (digits : List Nibble)
  | encrypt (digits : List Nibble)
  | decrypt (digits : List Nibble)
  | constructN (n : Nat) (digits : List Nibble)
  | byte (digits : List Nibble)
  | reset
deriving DecidableEq, Repr

/-- Two digits a byte, the high nibble written first. -/
def digitBytes : List Nibble → List Byte
  | h :: l :: ds => (l.setWidth 8 ||| h.setWidth 8 <<< 4) :: digitBytes ds
  | _ => []

/-- A command byte with a payload of exactly `n` bytes; no line is padded or cut. -/
def asmBytes (cmd : Byte) (n : Nat) (digits : List Nibble) : Option (List Input) :=
  if digits.length = 2 * n then some ((cmd :: digitBytes digits).map .byte) else none

/-- What a line puts on the core's inputs (R70); there are no pseudo-instructions (R71). -/
def assemble : AsmLine → Option (List Input)
  | .construct128 ds => asmBytes 0x10 16 ds
  | .construct192 ds => asmBytes 0x18 24 ds
  | .construct256 ds => asmBytes 0x20 32 ds
  | .encrypt ds => asmBytes 0x40 16 ds
  | .decrypt ds => asmBytes 0x80 16 ds
  | .constructN n ds => if n ≤ 63 then asmBytes (BitVec.ofNat 8 n) n ds else none
  | .byte ds => if ds.length = 2 then some ((digitBytes ds).map .byte) else none
  | .reset => some [.reset]

end Sys2Proof.Machine
end

