-- ==== Sys2Proof/Machine/Run.lean ====
section
/-! DEFINITION. A run of the core and what is observable of it (70_reset_and_hazards.md R180): the sequence of response bytes the
requester takes, the core stepping between the inputs. -/

namespace Sys2Proof.Machine

/-- Step until the core has no step, `n` times at most. -/
def settle : Nat → State → State
  | 0, s => s
  | n + 1, s =>
    match step s with
    | .next s' => settle n s'
    | _ => s

/-- Enough steps to settle: a reset, the lines left of a running command, one step a command on the channel (log entry 4). -/
def settleBound (s : State) : Nat := s.cmdChan.length + 35

/-- A run so far: the core, and the response bytes the requester has taken, oldest first. What has been taken stays taken: reset
discards only what is still on the response channel (R171). -/
structure Run where
  core : State
  taken : List Byte
deriving DecidableEq, Repr

/-- What an input hands to the requester: `take` the oldest byte of the response channel, if there is one (R40). -/
def handedOver (x : Input) (s : State) : List Byte :=
  match x with
  | .take => s.respChan.take 1
  | _ => []

/-- One input of a run; the core then settles (R51). -/
def feed (x : Input) (r : Run) : Run where
  core := settle (settleBound (applyInput x r.core)) (applyInput x r.core)
  taken := r.taken ++ handedOver x r.core

/-- The inputs of a run in order, the requester choosing when it takes a response byte. -/
def runInputs (xs : List Input) (r : Run) : Run := xs.foldl (fun r x => feed x r) r

/-- The requester takes every byte of the response channel. -/
def takeAll (r : Run) : Run where
  core := { r.core with respChan := [] }
  taken := r.taken ++ r.core.respChan

/-- What a run of R180 consists of: reset events and command bytes. -/
inductive RunEvent where
  | reset
  | byte (b : Byte)
deriving DecidableEq, Repr

/-- The input an event of a run is. -/
def inputOf : RunEvent → Input
  | .reset => .reset
  | .byte b => .byte b

/-- The events of a run in order, the requester taking each response as soon as the core has settled (log entry 14). -/
def runEvents (es : List RunEvent) (r : Run) : Run := es.foldl (fun r e => takeAll (feed (inputOf e) r)) r

/-- What is observable of a run from reset (R180): exactly the sequence of its response bytes. -/
def observed (es : List RunEvent) : List Byte := (runEvents es ⟨.reset, []⟩).taken

end Sys2Proof.Machine
end

