-- ==== Sys2Proof/Safety.lean ====
section
/-! DEFINITION. What counts as a safe run of the core: the invariant of its registers (10_state.md R21, R22, R26), well-formed
responses (30_encoding.md R64, R65), and the stops of a run (70_reset_and_hazards.md R180). -/

namespace Sys2Proof.Safety

open Sys2Proof.Machine

/-- In which phases `TEMP` holds a value: from the first line of a cipher command to its last, not between commands (R22, R26,
R134, R144; log entry 2). A cipher phase is entered only with `KEY_VALID = 1` (R134, R144). What the operand buffer holds in each
phase is the model's choice on a field of its own (DESIGN CHOICE, log entry 3): R24 calls the operand a value of the transaction. -/
def PhaseOk (s : State) : Prop :=
  match s.seq with
  | .idle => s.temp = none ∧ s.operand = .none
  | .ks => s.temp = none ∧ ∃ k32, s.operand = .key k32
  | .encIp => s.keyValid = true ∧ s.temp = none ∧ ∃ b, s.operand = .block b
  | .decIp => s.keyValid = true ∧ s.temp = none ∧ ∃ b, s.operand = .block b
  | .encRound _ => s.keyValid = true ∧ s.operand = .none ∧ ∃ t, s.temp = some t
  | .encFinal => s.keyValid = true ∧ s.operand = .none ∧ ∃ t, s.temp = some t
  | .decRound _ => s.keyValid = true ∧ s.operand = .none ∧ ∃ t, s.temp = some t
  | .decFinal => s.keyValid = true ∧ s.operand = .none ∧ ∃ t, s.temp = some t

/-- The invariant every step keeps: the spec's of the registers, the model's own of the operand buffer (log entry 3). -/
structure Inv (s : State) : Prop where
  /-- R21: whenever `KEY_VALID = 1`, `RK = KeySchedule(KEY)`. -/
  roundKeys : s.keyValid = true → s.rk = keySchedule config s.key
  /-- R22, R26, R134, R144; for the operand buffer, the model's choice (log entry 3). -/
  phase : PhaseOk s

/-- One response: a status byte and its data bytes (R64). -/
structure Response where
  st : Byte
  data : List Byte
deriving DecidableEq, Repr

/-- The bytes of a response on the channel (R64). -/
def Response.bytes (r : Response) : List Byte := r.st :: r.data

/-- The status codes of R65 and the length of R64. -/
abbrev Response.Legal (r : Response) : Prop :=
  r.st ∈ [(0x00 : Byte), 0x01, 0x81, 0x82, 0x83] ∧ r.data.length = rlen r.st

/-- Bit 7 of the status set: the command was rejected (R65). -/
abbrev Response.Rejects (r : Response) : Prop := r.st.getLsbD 7 = true

/-- A response channel that holds whole responses of R64, as long as the requester takes whole ones. -/
def ResponsesOk (bs : List Byte) : Prop :=
  ∃ rs : List Response, (∀ r ∈ rs, r.Legal) ∧ rs.flatMap Response.bytes = bs

/-- The run is over (R180). -/
abbrev Quiescent (s : State) : Prop := s.resetLine = false ∧ s.seq = .idle ∧ s.cmdChan = []

/-- The core waits for the missing bytes of a command (R69, R180). -/
abbrev Waiting (s : State) : Prop := s.resetLine = false ∧ s.seq = .idle ∧ decode s.cmdChan = .incomplete

/-- The idle core, no reset pending: what every command starts from (R26, R51). -/
abbrev Ready (s : State) : Prop := s.resetLine = false ∧ s.seq = .idle

end Sys2Proof.Safety
end

