-- ==== Sys2Proof/Certificates/Slice0/Obligations.lean ====
section
/-! DEFINITION. The statements for the provers, from the numbered rules of spec/. -/

open Sys2Proof Sys2Proof.Machine Sys2Proof.Safety

/-! ## Encoding and decoding (30_encoding.md) -/

/-- R61, R63, R66, R69: the decoder reads an encoded command back, every operand bit of it, and leaves the bytes after it. -/
def Obligations.DecodeOfEncode : Prop :=
  ∀ (i : Instr) (rest : List Byte), decode (encode i ++ rest) = .command i rest

/-- R63, R66: a command is decoded from its own encoding and from no other bytes. -/
def Obligations.DecodedBytesAreEncoding : Prop :=
  ∀ (bs : List Byte) (i : Instr) (rest : List Byte), decode bs = .command i rest → bs = encode i ++ rest

/-- R61, R62, R66: the words of the five commands as the tables of the spec write them, with the payloads of
95_test_vectors.md 2.9 or bytes that tell their places apart. -/
def Obligations.DecodeOfHandWrittenWords : Prop :=
  decode [0x10, 0x00, 0x01, 0x02, 0x03, 0x04, 0x05, 0x06, 0x07, 0x08, 0x09, 0x0a, 0x0b, 0x0c, 0x0d, 0x0e, 0x0f, 0xc0]
      = .command (.construct128 0x0f0e0d0c0b0a09080706050403020100) [0xc0] ∧
    decode [0x18, 0x00, 0x01, 0x02, 0x03, 0x04, 0x05, 0x06, 0x07, 0x08, 0x09, 0x0a, 0x0b, 0x0c, 0x0d, 0x0e, 0x0f,
        0x10, 0x11, 0x12, 0x13, 0x14, 0x15, 0x16, 0x17]
      = .command (.construct192 0x17161514131211100f0e0d0c0b0a09080706050403020100) [] ∧
    decode [0x20, 0x00, 0x01, 0x02, 0x03, 0x04, 0x05, 0x06, 0x07, 0x08, 0x09, 0x0a, 0x0b, 0x0c, 0x0d, 0x0e, 0x0f,
        0x10, 0x11, 0x12, 0x13, 0x14, 0x15, 0x16, 0x17, 0x18, 0x19, 0x1a, 0x1b, 0x1c, 0x1d, 0x1e, 0x1f]
      = .command (.construct256 0x1f1e1d1c1b1a191817161514131211100f0e0d0c0b0a09080706050403020100) [] ∧
    decode [0x40, 0x00, 0x11, 0x22, 0x33, 0x44, 0x55, 0x66, 0x77, 0x88, 0x99, 0xaa, 0xbb, 0xcc, 0xdd, 0xee, 0xff]
      = .command (.encrypt 0xffeeddccbbaa99887766554433221100) [] ∧
    decode [0x80, 0x00, 0x11, 0x22, 0x33, 0x44, 0x55, 0x66, 0x77, 0x88, 0x99, 0xaa, 0xbb, 0xcc, 0xdd, 0xee, 0xff]
      = .command (.decrypt 0xffeeddccbbaa99887766554433221100) []

/-- R62: the payload length is a function of the command byte alone, and a CONSTRUCT of an unsupported length consumes its
`klen` payload bytes before it is rejected. -/
def Obligations.PayloadLengthByCommandByte : Prop :=
  (∀ cmd : Byte, plen cmd = if cmd.toNat ≤ 0x3F then cmd.toNat else if cmd = 0x40 ∨ cmd = 0x80 then 16 else 0) ∧
    ∀ (cmd : Byte) (payload rest : List Byte), cmd.toNat ≤ 0x3F → cmd.toNat ∉ [16, 24, 32] → payload.length = cmd.toNat →
      decode (cmd :: payload ++ rest) = .rejected .invalidKeyLength rest

/-- R66: the complete map of the 256 command bytes, each followed by its whole payload. -/
def Obligations.CommandByteMap : Prop :=
  ∀ (cmd : Byte) (payload rest : List Byte), payload.length = plen cmd →
    decode (cmd :: payload ++ rest) =
      if cmd = 0x10 then .command (.construct128 (ofBytes 128 payload)) rest
      else if cmd = 0x18 then .command (.construct192 (ofBytes 192 payload)) rest
      else if cmd = 0x20 then .command (.construct256 (ofBytes 256 payload)) rest
      else if cmd = 0x40 then .command (.encrypt (ofBytes 128 payload)) rest
      else if cmd = 0x80 then .command (.decrypt (ofBytes 128 payload)) rest
      else if cmd.toNat ≤ 0x3F then .rejected .invalidKeyLength rest
      else .rejected .illegalCommand rest

/-- R67: of the 256 command bytes 5 are defined, 61 are a CONSTRUCT of an unsupported length and 190 are reserved. -/
def Obligations.CommandByteCounts : Prop :=
  let heads := (List.range 256).map fun n => decode (BitVec.ofNat 8 n :: List.replicate 63 0)
  heads.countP (fun d => match d with | .command _ _ => true | _ => false) = 5 ∧
    heads.countP (fun d => match d with | .rejected .invalidKeyLength _ => true | _ => false) = 61 ∧
    heads.countP (fun d => match d with | .rejected .illegalCommand _ => true | _ => false) = 190

/-- R63: payload byte `k` is byte `k` of the operand, for each of the five commands, and data byte `k` of a response is
byte `k` of the output Block. -/
def Obligations.OperandBytesInOrder : Prop :=
  (∀ (v : BitVec 128) (k : Nat), k < 16 →
      (payloadBytes (.construct128 v))[k]? = some (v.extractLsb' (8 * k) 8) ∧
        (payloadBytes (.encrypt v))[k]? = some (byteOf v k) ∧
        (payloadBytes (.decrypt v))[k]? = some (byteOf v k) ∧ (blockBytes v)[k]? = some (byteOf v k)) ∧
    (∀ (v : BitVec 192) (k : Nat), k < 24 → (payloadBytes (.construct192 v))[k]? = some (v.extractLsb' (8 * k) 8)) ∧
    (∀ (v : BitVec 256) (k : Nat), k < 32 → (payloadBytes (.construct256 v))[k]? = some (v.extractLsb' (8 * k) 8)) ∧
    ∀ v : BitVec 128, (payloadBytes (.construct128 v)).length = 16 ∧ (payloadBytes (.encrypt v)).length = 16 ∧
      (payloadBytes (.decrypt v)).length = 16 ∧ (blockBytes v).length = 16

/-- R69: every byte sequence splits in exactly one way into commands, each one byte and `PLEN` payload bytes that the decoder
takes whole, followed by at most one incomplete command. -/
def Obligations.StreamSplitsUniquely : Prop :=
  ∀ bs : List Byte, ∃! p : List (List Byte) × List Byte,
    (∀ f ∈ p.1, (∃ i, decode f = .command i []) ∨ (∃ e, decode f = .rejected e [])) ∧
      (decode p.2 = .empty ∨ decode p.2 = .incomplete) ∧ p.1.flatten ++ p.2 = bs

/-- R70: each of the five mnemonics, with as many digits as its payload needs, assembles to the bytes of its command;
`CONSTRUCTN` with a supported length assembles to the same bytes as the command of that length, and with an unsupported one to
bytes that the decoder rejects whole. A notation for test programs (log entry 11). -/
def Obligations.AssemblerLines : Prop :=
  (∀ ds : List Nibble, ds.length = 32 →
      assemble (.construct128 ds) = some ((encode (.construct128 (ofBytes 128 (digitBytes ds)))).map .byte) ∧
        assemble (.encrypt ds) = some ((encode (.encrypt (ofBytes 128 (digitBytes ds)))).map .byte) ∧
        assemble (.decrypt ds) = some ((encode (.decrypt (ofBytes 128 (digitBytes ds)))).map .byte)) ∧
    (∀ ds : List Nibble, ds.length = 48 →
      assemble (.construct192 ds) = some ((encode (.construct192 (ofBytes 192 (digitBytes ds)))).map .byte)) ∧
    (∀ ds : List Nibble, ds.length = 64 →
      assemble (.construct256 ds) = some ((encode (.construct256 (ofBytes 256 (digitBytes ds)))).map .byte)) ∧
    (∀ ds : List Nibble, assemble (.constructN 16 ds) = assemble (.construct128 ds) ∧
      assemble (.constructN 24 ds) = assemble (.construct192 ds) ∧
      assemble (.constructN 32 ds) = assemble (.construct256 ds)) ∧
    ∀ (n : Nat) (ds : List Nibble) (rest : List Byte), n ≤ 63 → n ∉ [16, 24, 32] → ds.length = 2 * n →
      ∃ bs : List Byte, assemble (.constructN n ds) = some (bs.map .byte) ∧
        decode (bs ++ rest) = .rejected .invalidKeyLength rest

/-! ## The step -/

/-- R51, R69: the idle core, no reset pending, runs the command its decoder reads, with the command's bytes taken off the
channel. That one step runs the whole command is the model's choice (log entry 4). -/
def Obligations.StepRunsDecodedCommand : Prop :=
  ∀ (s : State) (i : Instr) (rest : List Byte), Ready s → decode s.cmdChan = .command i rest →
    step s = exec i { s with cmdChan := rest }

/-- R69, R180: an incomplete command is not executed and produces no response, the core having no step until the missing
bytes arrive; with no byte on the channel the run is over. That the core without a step is a named fault is the model's choice
(log entry 6). -/
def Obligations.IncompleteCommandWaits : Prop :=
  (∀ (s : State) (cmd : Byte) (bs : List Byte), Ready s → s.cmdChan = cmd :: bs → bs.length < plen cmd →
      step s = .fault .awaitingPayload) ∧
    ∀ s : State, Ready s → s.cmdChan = [] → step s = .fault .quiescent

/-- R69: once the missing bytes have arrived the command executes as if all had come at once. That bytes arrive between steps is
the model's choice (log entry 7). -/
def Obligations.LateBytesCompleteTheCommand : Prop :=
  ∀ (s : State) (i : Instr) (front back : List Byte), Ready s → s.cmdChan = front → encode i = front ++ back →
    step ((back.map Input.byte).foldl (fun t x => applyInput x t) s) = exec i { s with cmdChan := [] }

/-- R51, R52: bytes that arrive behind the commands on the channel change nothing a step does. -/
def Obligations.LaterBytesDoNotMatter : Prop :=
  ∀ (s t : State) (more : List Byte), s.resetLine = false → step s = .next t →
    step { s with cmdChan := s.cmdChan ++ more } = .next { t with cmdChan := t.cmdChan ++ more }

/-- R64, R65, R179: a complete command on the channel of the idle core is answered at once by exactly one response of R65; a
rejection changes no register (nor the operand buffer, the model's own, log entry 3) and an acceptance is no rejection. -/
def Obligations.CommandAnsweredOnce : Prop :=
  ∀ s : State, Ready s → decode s.cmdChan ≠ .empty → decode s.cmdChan ≠ .incomplete →
    ∃ (t : State) (r : Response), step s = .next t ∧ r.Legal ∧ t.respChan = s.respChan ++ r.bytes ∧ t.seq = .idle ∧
      (r.Rejects → t.key = s.key ∧ t.rk = s.rk ∧ t.keyValid = s.keyValid ∧ t.temp = s.temp ∧ t.operand = s.operand) ∧
      (r.Rejects ↔ (∃ e rest, decode s.cmdChan = .rejected e rest) ∨
        s.keyValid = false ∧ ∃ p rest, decode s.cmdChan = .command (.encrypt p) rest ∨ decode s.cmdChan = .command (.decrypt p) rest)

/-! ## Errors (60_exceptions.md) -/

/-- R151: a CONSTRUCT of an unsupported length is consumed with its payload and answered InvalidKeyLength; nothing else
changes, an engine context that exists stays usable. -/
def Obligations.InvalidKeyLengthRejected : Prop :=
  ∀ (s : State) (cmd : Byte) (payload rest : List Byte), Ready s → s.cmdChan = cmd :: payload ++ rest →
    cmd.extractLsb' 6 2 = 0 → (cmd.extractLsb' 0 6).toNat ∉ [16, 24, 32] → payload.length = (cmd.extractLsb' 0 6).toNat →
    step s = .next { s with cmdChan := rest, respChan := s.respChan ++ [0x81] }

/-- R152, R155: a reserved command byte is consumed alone and answered IllegalCommand, whether or not a key is loaded. -/
def Obligations.IllegalCommandRejected : Prop :=
  ∀ (s : State) (cmd : Byte) (rest : List Byte), Ready s → s.cmdChan = cmd :: rest →
    (0x41 ≤ cmd.toNat ∧ cmd.toNat ≤ 0x7F ∨ 0x81 ≤ cmd.toNat ∧ cmd.toNat ≤ 0xBF ∨ 0xC0 ≤ cmd.toNat ∧ cmd.toNat ≤ 0xFF) →
    step s = .next { s with cmdChan := rest, respChan := s.respChan ++ [0x82] }

/-- R153: ENCRYPT and DECRYPT with `KEY_VALID = 0` consume their payload and answer NoKey; no state is written. After a
CONSTRUCT the condition cannot arise again until reset: no other step leaves `KEY_VALID = 0`. -/
def Obligations.NoKeyRejected : Prop :=
  (∀ (s : State) (cmd : Byte) (payload rest : List Byte), Ready s → s.keyValid = false → cmd = 0x40 ∨ cmd = 0x80 →
      payload.length = 16 → s.cmdChan = cmd :: payload ++ rest →
      step s = .next { s with cmdChan := rest, respChan := s.respChan ++ [0x83] }) ∧
    ∀ s t : State, s.keyValid = true → s.resetLine = false → step s = .next t → t.keyValid = true

/-- R64, R65, R155: the response to a complete command: which status it carries follows from the command byte and `KEY_VALID`
alone, OK_DATA with 16 data bytes, every other status with none; the command's bytes are consumed. -/
def Obligations.StatusByCommandByteAndKey : Prop :=
  ∀ (s : State) (cmd : Byte) (payload rest : List Byte), Ready s → s.cmdChan = cmd :: payload ++ rest →
    payload.length = plen cmd →
    ∃ (t : State) (st : Byte) (data : List Byte),
      step s = .next t ∧ t.cmdChan = rest ∧ t.respChan = s.respChan ++ st :: data ∧
      st = (if cmd = 0x10 ∨ cmd = 0x18 ∨ cmd = 0x20 then 0x00
        else if cmd = 0x40 ∨ cmd = 0x80 then (if s.keyValid then 0x01 else 0x83)
        else if cmd.toNat ≤ 0x3F then 0x81 else 0x82) ∧
      data.length = (if st = 0x01 then 16 else 0) ∧
      (st.getLsbD 7 = true → t.key = s.key ∧ t.rk = s.rk ∧ t.keyValid = s.keyValid ∧ t.temp = s.temp ∧ t.seq = .idle)

/-! ## Key construction (41_key_construction.md) -/

/-- R90, R93: CONSTRUCT256 always completes: it copies its 32 bytes verbatim, writes `KEY`, all of `RK` and `KEY_VALID`
together and answers OK. -/
def Obligations.Construct256Result : Prop :=
  ∀ (k : BitVec 256) (s : State), ∃ t : State,
    exec (.construct256 k) s = .next t ∧ t.key = k ∧ t.rk = keySchedule config k ∧ t.keyValid = true ∧ t.seq = .idle ∧
      t.respChan = s.respChan ++ [0x00]

/-- R91, R93: CONSTRUCT192 always completes: it writes the Key `k ++ [0xF0] ++ zeros(7)`, its round keys and `KEY_VALID` together
and answers OK. -/
def Obligations.Construct192Result : Prop :=
  ∀ (k : BitVec 192) (s : State), ∃ (K : Key) (t : State),
    leBytes 32 K.toNat = leBytes 24 k.toNat ++ [0xF0] ++ List.replicate 7 0 ∧
      exec (.construct192 k) s = .next t ∧ t.key = K ∧ t.rk = keySchedule config K ∧ t.keyValid = true ∧ t.seq = .idle ∧
      t.respChan = s.respChan ++ [0x00]

/-- R92, R93: CONSTRUCT128 always completes: it writes the Key `k ++ [0xF0] ++ zeros(15)`, its round keys and `KEY_VALID` together
and answers OK. -/
def Obligations.Construct128Result : Prop :=
  ∀ (k : BitVec 128) (s : State), ∃ (K : Key) (t : State),
    leBytes 32 K.toNat = leBytes 16 k.toNat ++ [0xF0] ++ List.replicate 15 0 ∧
      exec (.construct128 k) s = .next t ∧ t.key = K ∧ t.rk = keySchedule config K ∧ t.keyValid = true ∧ t.seq = .idle ∧
      t.respChan = s.respChan ++ [0x00]

/-- R94: a short key and the longer key that spells out its padding leave the same state; a 16-byte key and the 24-byte key
`K16 ++ [0xF0] ++ zeros(7)` do not; and with another `PAD_MARKER` the padded keys carry that value. -/
def Obligations.KeyLengthEquivalence : Prop :=
  (∀ (k : BitVec 128) (K : BitVec 256) (s : State),
      leBytes 32 K.toNat = leBytes 16 k.toNat ++ [0xF0] ++ List.replicate 15 0 →
      exec (.construct128 k) s = exec (.construct256 K) s) ∧
    (∀ (k : BitVec 192) (K : BitVec 256) (s : State),
      leBytes 32 K.toNat = leBytes 24 k.toNat ++ [0xF0] ++ List.replicate 7 0 →
      exec (.construct192 k) s = exec (.construct256 K) s) ∧
    (∀ (k : BitVec 128) (l : BitVec 192) (s t u : State),
      leBytes 24 l.toNat = leBytes 16 k.toNat ++ [0xF0] ++ List.replicate 7 0 →
      exec (.construct128 k) s = .next t → exec (.construct192 l) s = .next u → t.key ≠ u.key) ∧
    ∀ (c : Config) (k : BitVec 128) (l : BitVec 192) (K : BitVec 256),
      (leBytes 32 K.toNat = leBytes 16 k.toNat ++ [c.padMarker] ++ List.replicate 15 0 → padKey c 16 k = K) ∧
        (leBytes 32 K.toNat = leBytes 24 l.toNat ++ [c.padMarker] ++ List.replicate 7 0 → padKey c 24 l = K)

/-- R49, R52, R106: the engine context a CONSTRUCT leaves depends on its master key alone, so the same command twice leaves
the same context as once and two cores that construct the same key agree. -/
def Obligations.ContextDependsOnMasterKeyOnly : Prop :=
  ∀ (i : Instr) (s t s' t' : State), (∀ p, i ≠ .encrypt p) → (∀ c, i ≠ .decrypt c) →
    exec i s = .next s' → exec i t = .next t' →
    s'.key = t'.key ∧ s'.rk = t'.rk ∧ s'.keyValid = true ∧ t'.keyValid = true

/-- R25: what a CONSTRUCT leaves unchanged, its destinations `KEY`, `RK`, `KEY_VALID` and `SEQ` apart; the operand buffer and the
reset input are the model's own fields (log entries 3 and 7). -/
def Obligations.ConstructFrame : Prop :=
  ∀ (i : Instr) (s t : State), (∀ p, i ≠ .encrypt p) → (∀ c, i ≠ .decrypt c) → exec i s = .next t →
    t.temp = s.temp ∧ t.cmdChan = s.cmdChan ∧ t.resetLine = s.resetLine ∧ t.respChan = s.respChan ++ [0x00] ∧
      t.seq = .idle ∧ t.operand = .none

/-! ## Key schedule (42_key_schedule.md) -/

/-- R100: key word `w[-8 + k]` is key bytes `4k .. 4k+3`, the least significant first. -/
def Obligations.KeyWordsLittleEndian : Prop :=
  ∀ (K : Key) (k : Nat), k < 8 → ∀ b0 b1 b2 b3 : Byte,
    (leBytes 32 K.toNat)[4 * k]? = some b0 → (leBytes 32 K.toNat)[4 * k + 1]? = some b1 →
    (leBytes 32 K.toNat)[4 * k + 2]? = some b2 → (leBytes 32 K.toNat)[4 * k + 3]? = some b3 →
    (keyWord K k).toNat = b0.toNat + 256 * b1.toNat + 65536 * b2.toNat + 16777216 * b3.toNat

/-- R101: the 132 prekey words follow the recurrence, the key words serving as the initial eight entries. -/
def Obligations.PrekeyRecurrence : Prop :=
  ∀ K : Key, (prekeys K).length = 132 ∧
    ∀ w : List Word, w = (List.range 8).map (keyWord K) ++ prekeys K → ∀ i < 132,
      w[i + 8]?.getD 0 = rotl (w[i]?.getD 0 ^^^ w[i + 3]?.getD 0 ^^^ w[i + 5]?.getD 0 ^^^ w[i + 7]?.getD 0 ^^^
        0x9E3779B9#32 ^^^ BitVec.ofNat 32 i) 11

/-- R103: `kbox(i) = (7 - (i+4)) mod 8` with the Euclidean remainder: the full table of the 33 chunks. -/
def Obligations.KeyBoxTable : Prop :=
  (List.range 33).map (fun i => (kbox i).val) =
    [3, 2, 1, 0, 7, 6, 5, 4, 3, 2, 1, 0, 7, 6, 5, 4, 3, 2, 1, 0, 7, 6, 5, 4, 3, 2, 1, 0, 7, 6, 5, 4, 3]

/-- R102, R104, R105: round key `i` is chunk `i` of the prekey words through box `kbox(i)`, nibble-wise or bit-sliced as
`KS_SBOX_MODE` says, for every `Config`. -/
def Obligations.RoundKeysFromChunks : Prop :=
  ∀ (c : Config) (K : Key) (i : Fin 33) (w0 w1 w2 w3 : Word),
    (prekeys K)[4 * i.val]? = some w0 → (prekeys K)[4 * i.val + 1]? = some w1 →
    (prekeys K)[4 * i.val + 2]? = some w2 → (prekeys K)[4 * i.val + 3]? = some w3 →
    (c.ksSboxMode = .nibble → (keySchedule c K).get i = subLayer c (kbox i.val) (blockOf w0 w1 w2 w3)) ∧
      (c.ksSboxMode = .bitslice → (keySchedule c K).get i = subBitslice c (kbox i.val) (blockOf w0 w1 w2 w3))

/-! ## The Table Set (40_table_set.md) -/

/-- R81, R82, R87: the default permutations are the formulas of the spec, the default `Config` is admitted and its boxes are
pairwise different. -/
def Obligations.DefaultTables : Prop :=
  (∀ i : Fin 128, (config.ip.get i).val = 32 * (i.val % 4) + i.val / 4) ∧
    (∀ i : Fin 128, (config.fp.get i).val = 4 * (i.val % 32) + i.val / 32) ∧ config.Admitted ∧ config.BoxesDistinct

/-- R83: `Permute` gathers, `bit(B', i) = bit(B, T[i])`, and a permutation leaves the number of 1 bits. -/
def Obligations.PermuteGathers : Prop :=
  ∀ (T : BitTable) (B : Block),
    (∀ i : Fin 128, bit (permute T B) i.val = bit B (T.get i).val) ∧
      ((∀ i j : Fin 128, T.get i = T.get j → i = j) →
        (List.range 128).countP (bit (permute T B)) = (List.range 128).countP (bit B))

/-- R86: both orders of `IP` and `FP` are the identity, for every admitted `Config`. -/
def Obligations.PermutationsInverse : Prop :=
  ∀ (c : Config) (B : Block), c.Admitted →
    permute c.fp (permute c.ip B) = B ∧ permute c.ip (permute c.fp B) = B

/-- R140, C9: scattering through `FP` is the other way to its inverse: it equals `Permute(IP, .)`, and likewise for `IP`. -/
def Obligations.ScatterIsInversePermutation : Prop :=
  ∀ (c : Config) (B : Block), c.Admitted →
    permuteScatter c.fp B = permute c.ip B ∧ permuteScatter c.ip B = permute c.fp B

/-! ## The S-box layer (43_substitution.md) -/

/-- R110: every nibble of the Block goes through the same box, and byte `m` is built of its two nibbles, the low one low. -/
def Obligations.SubLayerLanes : Prop :=
  ∀ (c : Config) (b : Fin 8) (B : Block),
    (∀ n < 32, nibOf (subLayer c b B) n = sboxRead c b (nibOf B n)) ∧
      ∀ m < 16, byteOf (subLayer c b B) m =
        (sboxRead c b ((byteOf B m).extractLsb' 0 4)).setWidth 8 ||| (sboxRead c b ((byteOf B m).extractLsb' 4 4)).setWidth 8 <<< 4

/-- R111: the inverse layer puts every nibble of the Block through the same inverse box, byte by byte with the low nibble low. -/
def Obligations.InvSubLayerLanes : Prop :=
  ∀ (c : Config) (b : Fin 8) (B : Block),
    (∀ n < 32, nibOf (invSubLayer c b B) n = sboxInvRead c b (nibOf B n)) ∧
      ∀ m < 16, byteOf (invSubLayer c b B) m =
        (sboxInvRead c b ((byteOf B m).extractLsb' 0 4)).setWidth 8 |||
          (sboxInvRead c b ((byteOf B m).extractLsb' 4 4)).setWidth 8 <<< 4

/-- R112: the two layers undo each other for equal boxes, for every admitted `Config`; for unequal boxes in general not. -/
def Obligations.SubLayerInverse : Prop :=
  (∀ (c : Config) (b : Fin 8) (B : Block), c.Admitted →
      invSubLayer c b (subLayer c b B) = B ∧ subLayer c b (invSubLayer c b B) = B) ∧
    ∃ (b b' : Fin 8) (B : Block), b ≠ b' ∧ invSubLayer config b' (subLayer config b B) ≠ B

/-- R114: at each bit position the four words give one 4-bit value, whose substitute's four bits go back to that position. -/
def Obligations.BitslicePositions : Prop :=
  ∀ (c : Config) (b : Fin 8) (B : Block) (j : Nat) (n : Nibble), j < 32 →
    (∀ k < 4, n.getLsbD k = (wordOf B k).getLsbD j) →
    ∀ k < 4, (wordOf (subBitslice c b B) k).getLsbD j = (sboxRead c b n).getLsbD k

/-- R114: with the default permutations the bit-sliced layer is the nibble layer between `IP` and `FP`. -/
def Obligations.BitsliceIsConjugatedSubLayer : Prop :=
  ∀ (b : Fin 8) (B : Block), subBitslice config b B = permute config.fp (subLayer config b (permute config.ip B))

/-! ## The linear mixing transform (44_linear_mixing.md) -/

/-- R120: the words of `LT(B)` as the lines of the formula leave them; `LT` of zero is zero, `LT` is linear over XOR, and the
number of 1 bits is not kept. -/
def Obligations.MixingTransform : Prop :=
  (∀ B : Block,
      let X0 := rotl (wordOf B 0) 13
      let X2 := rotl (wordOf B 2) 3
      let X1 := rotl (wordOf B 1 ^^^ X0 ^^^ X2) 1
      let X3 := rotl (wordOf B 3 ^^^ X2 ^^^ X0 <<< 3) 7
      wordOf (lt B) 0 = rotl (X0 ^^^ X1 ^^^ X3) 5 ∧ wordOf (lt B) 1 = X1 ∧
        wordOf (lt B) 2 = rotl (X2 ^^^ X3 ^^^ X1 <<< 7) 22 ∧ wordOf (lt B) 3 = X3) ∧
    lt 0 = 0 ∧ (∀ A B : Block, lt (A ^^^ B) = lt A ^^^ lt B) ∧
    ∃ B : Block, (List.range 128).countP (bit (lt B)) ≠ (List.range 128).countP (bit B)

/-- R121: the words of `InvLT(B)` as its lines leave them; `InvLT` of zero is zero, and `InvLT` is linear over XOR. -/
def Obligations.InverseMixingTransform : Prop :=
  (∀ B : Block,
      let X2 := rotr (wordOf B 2) 22 ^^^ wordOf B 3 ^^^ wordOf B 1 <<< 7
      let X0 := rotr (wordOf B 0) 5 ^^^ wordOf B 1 ^^^ wordOf B 3
      wordOf (invLt B) 0 = rotr X0 13 ∧ wordOf (invLt B) 1 = rotr (wordOf B 1) 1 ^^^ X0 ^^^ X2 ∧
        wordOf (invLt B) 2 = rotr X2 3 ∧ wordOf (invLt B) 3 = rotr (wordOf B 3) 7 ^^^ X2 ^^^ X0 <<< 3) ∧
    invLt 0 = 0 ∧ ∀ A B : Block, invLt (A ^^^ B) = invLt A ^^^ invLt B

/-- R122: `LT` and `InvLT` undo each other on every Block. -/
def Obligations.MixingInverse : Prop := ∀ B : Block, invLt (lt B) = B ∧ lt (invLt B) = B

/-- R123: the 128 by 128 XOR table made from `LT(e_i)` and the word formula agree on every Block, and likewise for
`InvLT`. -/
def Obligations.MixingBitTable : Prop :=
  ∀ B : Block, applyXorTable (xorTable lt) B = lt B ∧ applyXorTable (xorTable invLt) B = invLt B

/-! ## ENCRYPT and DECRYPT (45_encrypt.md, 46_decrypt.md) -/

/-- R131, R132: an encryption round injects its key, substitutes through box `r mod 8` and mixes, the last round excepted. -/
def Obligations.EncRoundSteps : Prop :=
  ∀ (c : Config) (rk : Vector Block 33) (r : Fin 32) (b : Fin 8) (T : Block), b.val = r.val % 8 →
    encRound c rk r T =
      if r.val < 31 then lt (subLayer c b (T ^^^ rk.get r.castSucc)) else subLayer c b (T ^^^ rk.get r.castSucc)

/-- R113, R141: a decryption round undoes the mixing, the substitution through box `r mod 8` and the key of encryption round
`r`, so it undoes that round, and the round undoes it, for every admitted `Config`. -/
def Obligations.DecRoundUndoesEncRound : Prop :=
  ∀ (c : Config) (rk : Vector Block 33) (r : Fin 32) (b : Fin 8) (T : Block), c.Admitted → b.val = r.val % 8 →
    decRound c rk r T = invSubLayer c b (if r.val < 31 then invLt T else T) ^^^ rk.get r.castSucc ∧
      decRound c rk r (encRound c rk r T) = T ∧ encRound c rk r (decRound c rk r T) = T

/-- R130: ENCRYPT with a key loaded completes for every Block and answers OK_DATA and
`Permute(FP, EncRound(31, .. EncRound(0, Permute(IP, P))) xor RK[32])`; it writes no register and keeps no `TEMP`; without a key
it answers NoKey. -/
def Obligations.EncryptResult : Prop :=
  ∀ (p : Block) (s : State),
    (s.keyValid = true → ∃ t : State,
      exec (.encrypt p) s = .next t ∧ t.key = s.key ∧ t.rk = s.rk ∧ t.keyValid = true ∧ t.temp = none ∧ t.seq = .idle ∧
        t.respChan = s.respChan ++ 0x01 :: blockBytes (permute config.fp
          ((List.finRange 32).foldl (fun T r => encRound config s.rk r T) (permute config.ip p) ^^^ s.rk.get 32))) ∧
    (s.keyValid = false →
      exec (.encrypt p) s = .next { s with seq := .idle, respChan := s.respChan ++ [0x83] })

/-- R140: DECRYPT with a key loaded completes for every Block and answers OK_DATA and the rounds 31 down to 0 between `IP` with
the final key and `FP`; it writes no register and keeps no `TEMP`; without a key it answers NoKey. -/
def Obligations.DecryptResult : Prop :=
  ∀ (c : Block) (s : State),
    (s.keyValid = true → ∃ t : State,
      exec (.decrypt c) s = .next t ∧ t.key = s.key ∧ t.rk = s.rk ∧ t.keyValid = true ∧ t.temp = none ∧ t.seq = .idle ∧
        t.respChan = s.respChan ++ 0x01 :: blockBytes (permute config.fp
          ((List.finRange 32).foldr (fun r T => decRound config s.rk r T) (permute config.ip c ^^^ s.rk.get 32)))) ∧
    (s.keyValid = false →
      exec (.decrypt c) s = .next { s with seq := .idle, respChan := s.respChan ++ [0x83] })

/-- R133, R143, R31: what ENCRYPT and DECRYPT leave unchanged: every register, the command channel and the reset input; the
response channel only grows. The operand buffer and the reset input are the model's own fields (log entries 3 and 7). -/
def Obligations.CipherFrame : Prop :=
  ∀ (i : Instr) (s t : State), (∃ b, i = .encrypt b ∨ i = .decrypt b) → exec i s = .next t →
    t.key = s.key ∧ t.rk = s.rk ∧ t.keyValid = s.keyValid ∧ t.cmdChan = s.cmdChan ∧ t.resetLine = s.resetLine ∧
      t.seq = .idle ∧ (s.temp = none → t.temp = none) ∧ (s.operand = .none → t.operand = .none) ∧
      ∃ out, t.respChan = s.respChan ++ out

/-- R49, R133, R143: the answer to an ENCRYPT or DECRYPT is a function of the Block and of `RK` and `KEY_VALID` alone. -/
def Obligations.CipherAnswerDependsOnKeyAndBlock : Prop :=
  ∀ (i : Instr) (s t s' t' : State), (∃ b, i = .encrypt b ∨ i = .decrypt b) → s.rk = t.rk → s.keyValid = t.keyValid →
    exec i s = .next s' → exec i t = .next t' →
    ∃ out, s'.respChan = s.respChan ++ out ∧ t'.respChan = t.respChan ++ out

/-- R134: the sequencer takes ENCRYPT through `IP`, the rounds 0 to 31 in order and the final lines in 34 steps for every
input, `TEMP` holding the round results, and those 34 steps are what `exec` does at once. The accepted command in phase ENC_IP
with its operand buffered is the model's choice (log entries 3 and 4). -/
def Obligations.EncryptSequencer : Prop :=
  ∀ (p : Block) (s : State), s.resetLine = false → s.keyValid = true →
    (∀ n : Nat, ∀ h : n < 32, Sys2Proof.core.run (n + 1) (accept .encIp (.block p) s) =
        .next { s with temp := some (encTemp config s.rk p n), seq := .encRound ⟨n, h⟩, operand := .none }) ∧
      Sys2Proof.core.run 33 (accept .encIp (.block p) s) =
        .next { s with temp := some (encTemp config s.rk p 32), seq := .encFinal, operand := .none } ∧
      Sys2Proof.core.run 34 (accept .encIp (.block p) s) = exec (.encrypt p) s

/-- R144: the sequencer takes DECRYPT through `IP` and the final key, the rounds 31 down to 0 and the final line in 34 steps for
every input, and those 34 steps are what `exec` does at once. The accepted command in phase DEC_IP with its operand buffered is
the model's choice (log entries 3 and 4). -/
def Obligations.DecryptSequencer : Prop :=
  ∀ (c : Block) (s : State), s.resetLine = false → s.keyValid = true →
    (∀ n : Nat, ∀ h : n < 32, Sys2Proof.core.run (n + 1) (accept .decIp (.block c) s) =
        .next { s with temp := some (decTemp config s.rk c n), seq := .decRound ⟨31 - n, by omega⟩, operand := .none }) ∧
      Sys2Proof.core.run 33 (accept .decIp (.block c) s) =
        .next { s with temp := some (decTemp config s.rk c 32), seq := .decFinal, operand := .none } ∧
      Sys2Proof.core.run 34 (accept .decIp (.block c) s) = exec (.decrypt c) s

/-- R142: decryption undoes encryption and encryption undoes decryption, for every Block, every set of round keys and every
admitted `Config`; and on the machine, if ENCRYPT answers OK_DATA with a Block, then DECRYPT of that Block in any state with
the same round keys loaded (no CONSTRUCT between) answers OK_DATA with the first Block, and the other way round. -/
def Obligations.CipherRoundTrip : Prop :=
  (∀ (c : Config) (rk : Vector Block 33) (B : Block), c.Admitted →
      decryptBlock c rk (encryptBlock c rk B) = B ∧ encryptBlock c rk (decryptBlock c rk B) = B) ∧
    ∀ (B : Block) (s t : State), s.keyValid = true → t.keyValid = true → t.rk = s.rk →
      (∃ (C : Block) (s' t' : State), exec (.encrypt B) s = .next s' ∧ s'.respChan = s.respChan ++ 0x01 :: blockBytes C ∧
          exec (.decrypt C) t = .next t' ∧ t'.respChan = t.respChan ++ 0x01 :: blockBytes B) ∧
        ∃ (C : Block) (s' t' : State), exec (.decrypt B) s = .next s' ∧ s'.respChan = s.respChan ++ 0x01 :: blockBytes C ∧
          exec (.encrypt C) t = .next t' ∧ t'.respChan = t.respChan ++ 0x01 :: blockBytes B

/-! ## Reset (10_state.md R32, 70_reset_and_hazards.md) -/

/-- R32: the values the spec gives for reset (it gives none for `KEY` and `RK`, log entry 1). -/
def Obligations.ResetValues : Prop :=
  State.reset.keyValid = false ∧ State.reset.temp = none ∧ State.reset.seq = .idle ∧ State.reset.cmdChan = [] ∧
    State.reset.respChan = []

/-- R170, R171: whenever the reset input is asserted, a command in flight or not, the next step leaves `KEY_VALID = 0`, `SEQ`
IDLE, `TEMP` without value and both channels empty, and the core then waits for a command byte. The operand buffer, the reset
input sampled by the next step and the fault of a waiting core are the model's choices (log entries 3, 6 and 7). -/
def Obligations.ResetAtAnyMoment : Prop :=
  ∀ s : State, ∃ t : State, step (applyInput .reset s) = .next t ∧ t.keyValid = false ∧ t.seq = .idle ∧ t.temp = none ∧
    t.operand = .none ∧ t.cmdChan = [] ∧ t.respChan = [] ∧ step t = .fault .quiescent

/-- R27, R170: a step clears `KEY_VALID` only by reset, and sets it only by completing a CONSTRUCT. -/
def Obligations.KeyValidChanges : Prop :=
  ∀ s t : State, step s = .next t →
    (s.keyValid = true → t.keyValid = false → s.resetLine = true) ∧
      (s.keyValid = false → t.keyValid = true → s.resetLine = false ∧
        (s.seq = .ks ∨ ∃ i rest, s.seq = .idle ∧ decode s.cmdChan = .command i rest ∧
          (∀ p, i ≠ .encrypt p) ∧ ∀ c, i ≠ .decrypt c))

/-- R20, R21, R93: no step but a CONSTRUCT's (or reset) writes `KEY` or `RK`. -/
def Obligations.OnlyConstructWritesKey : Prop :=
  ∀ s t : State, step s = .next t → s.resetLine = false → (t.key ≠ s.key ∨ t.rk ≠ s.rk) →
    s.seq = .ks ∨ ∃ i rest, s.seq = .idle ∧ decode s.cmdChan = .command i rest ∧
      (∀ p, i ≠ .encrypt p) ∧ ∀ c, i ≠ .decrypt c

/-! ## Invariants and runs -/

/-- R21, R22, R26, R32: the invariant holds after reset: `KEY_VALID = 0`, so nothing is asked of `RK`, and in `SEQ` IDLE `TEMP` has
no value (log entry 2). That the operand buffer is empty is the model's choice on a field of its own (log entry 3). -/
def Obligations.InvAtReset : Prop := Inv State.reset

/-- R21, R22, R26, R134, R144: every step keeps `RK = KeySchedule(KEY)` while `KEY_VALID = 1`, `KEY_VALID = 1` in the cipher phases,
and `TEMP` with a value in their rounds and final phases and without one elsewhere (log entry 2). That the operand buffer holds the
Key in KS, the Block in ENC_IP and DEC_IP and nothing elsewhere is the model's choice on a field of its own (log entry 3). -/
def Obligations.StepKeepsInv : Prop := ∀ s t : State, Inv s → step s = .next t → Inv t

/-- R64, R65: every step keeps the response channel a sequence of whole responses of R65. -/
def Obligations.StepKeepsResponses : Prop :=
  ∀ s t : State, ResponsesOk s.respChan → step s = .next t → ResponsesOk t.respChan

/-- R69, R150, R180: in a state of the invariant the core stops only where it waits, for a command or for the rest of one; it
never reads a value that is not there and it refuses nothing. The names of the stops are the model's (log entry 6), and so is what
the invariant asks of the operand buffer (log entry 3). -/
def Obligations.CoreStopsOnlyToWait : Prop :=
  ∀ s : State, Inv s →
    (step s = .fault .quiescent ↔ Quiescent s) ∧ (step s = .fault .awaitingPayload ↔ Waiting s) ∧
      (¬ Quiescent s → ¬ Waiting s → ∃ t, step s = .next t)

/-- R179, R180: from every state of the invariant the core comes to be quiescent or to wait for the rest of a command within a
bounded number of steps. The bound is the model's own: it counts one step a command (log entry 4); so is what the invariant asks of
the operand buffer (log entry 3). -/
def Obligations.CoreSettles : Prop :=
  ∀ s : State, Inv s → ∃ (n : Nat) (t : State), n ≤ s.cmdChan.length + 34 ∧ Sys2Proof.core.run n s = .next t ∧
    (Quiescent t ∨ Waiting t)

/-- R8, R13, R45: the bit, nibble, byte and word views number the same bit the same way, and `block` undoes `word`. -/
def Obligations.ViewsAgree : Prop :=
  ∀ B : Block,
    (∀ i < 128, bit B i = (byteOf B (i / 8)).getLsbD (i % 8) ∧ bit B i = (nibOf B (i / 4)).getLsbD (i % 4) ∧
      bit B i = (wordOf B (i / 32)).getLsbD (i % 32)) ∧
    blockOf (wordOf B 0) (wordOf B 1) (wordOf B 2) (wordOf B 3) = B ∧
    B.toNat = leNat (blockBytes B) ∧ ∀ x0 x1 x2 x3 : Word, wordOf (blockOf x0 x1 x2 x3) 0 = x0 ∧
      wordOf (blockOf x0 x1 x2 x3) 1 = x1 ∧ wordOf (blockOf x0 x1 x2 x3) 2 = x2 ∧ wordOf (blockOf x0 x1 x2 x3) 3 = x3
end

