-- ==== Sys2Proof/Laws/Core.lean ====
section
/-! SUPPORT. Runs of the core, one step at a time: stated for any core, then for this one, whose `State` is `core.State`. -/

namespace Sys2Proof.Machine

theorem run_of_next (M : Host.Core) {s t : M.State} (n : Nat) (h : M.step s = .next t) : M.run (n + 1) s = M.run n t := by
  rw [Host.Core.run, h]

theorem run_of_fault (M : Host.Core) {s : M.State} {f : M.Fault} (n : Nat) (h : M.step s = .fault f) :
    M.run (n + 1) s = .fault f := by
  rw [Host.Core.run, h]

theorem core_run_next {s t : State} (n : Nat) (h : step s = .next t) :
    Sys2Proof.core.run (n + 1) s = Sys2Proof.core.run n t :=
  run_of_next Sys2Proof.core n h

theorem core_run_fault {s : State} {f : Fault} (n : Nat) (h : step s = .fault f) :
    Sys2Proof.core.run (n + 1) s = .fault f :=
  run_of_fault Sys2Proof.core n h

end Sys2Proof.Machine
end

