-- ==== Sys2Proof/Laws/Operands.lean ====
section
/-! SUPPORT. The laws of the Block views and of the word arithmetic: what each operation of Machine/Operands.lean gives. -/

namespace Sys2Proof.Machine

/-! Byte strings and integers. -/

@[simp] theorem length_leBytes (n v : Nat) : (leBytes n v).length = n := by
  induction n generalizing v with
  | zero => rfl
  | succ n ih => simp [leBytes, ih]

theorem leNat_lt (bs : List Byte) : leNat bs < 256 ^ bs.length := by
  induction bs with
  | nil => simp [leNat]
  | cons b bs ih =>
    have := b.isLt
    simp only [leNat, List.length_cons, Nat.pow_succ]
    omega

theorem leNat_leBytes (n v : Nat) : leNat (leBytes n v) = v % 256 ^ n := by
  induction n generalizing v with
  | zero => simp [leBytes, leNat, Nat.mod_one]
  | succ n ih =>
    have h : v % (256 * 256 ^ n) = v % 256 + 256 * (v / 256 % 256 ^ n) := Nat.mod_mul
    rw [leBytes, leNat, ih, BitVec.toNat_ofNat, Nat.pow_succ' (m := 256), h]

theorem leBytes_leNat (bs : List Byte) : leBytes bs.length (leNat bs) = bs := by
  induction bs with
  | nil => rfl
  | cons b bs ih =>
    have hb := b.isLt
    have hdiv : (b.toNat + 256 * leNat bs) / 256 = leNat bs := by omega
    have hmod : BitVec.ofNat 8 (b.toNat + 256 * leNat bs) = b := by
      apply BitVec.eq_of_toNat_eq
      simp only [BitVec.toNat_ofNat]
      omega
    simp only [leBytes, leNat, List.length_cons, hdiv, hmod, ih]

theorem ofBytes_leBytes {w : Nat} (n : Nat) (v : BitVec w) (h : 2 ^ w ≤ 256 ^ n) : ofBytes w (leBytes n v.toNat) = v := by
  rw [ofBytes, leNat_leBytes, Nat.mod_eq_of_lt (Nat.lt_of_lt_of_le v.isLt h)]
  simp

theorem leBytes_ofBytes {w : Nat} (bs : List Byte) (h : 256 ^ bs.length ≤ 2 ^ w) :
    leBytes bs.length (ofBytes w bs).toNat = bs := by
  rw [ofBytes, BitVec.toNat_ofNat, Nat.mod_eq_of_lt (Nat.lt_of_lt_of_le (leNat_lt bs) h), leBytes_leNat]

@[simp] theorem length_blockBytes (B : Block) : (blockBytes B).length = 16 := length_leBytes ..

@[simp] theorem ofBytes_blockBytes (B : Block) : ofBytes 128 (blockBytes B) = B := ofBytes_leBytes 16 B (by decide)

theorem blockBytes_ofBytes (bs : List Byte) (h : bs.length = 16) : blockBytes (ofBytes 128 bs) = bs := by
  have := leBytes_ofBytes (w := 128) bs (by rw [h]; decide)
  rwa [h] at this

theorem getElem?_leBytes (n v k : Nat) : (leBytes n v)[k]? = if k < n then some (BitVec.ofNat 8 (v / 256 ^ k)) else none := by
  induction n generalizing v k with
  | zero => simp [leBytes]
  | succ n ih =>
    cases k with
    | zero => simp [leBytes]
    | succ k => simp [leBytes, ih, Nat.div_div_eq_div_mul, Nat.pow_succ']

theorem ofNat_div_eq_extract {w : Nat} (v : BitVec w) (k : Nat) :
    BitVec.ofNat 8 (v.toNat / 256 ^ k) = v.extractLsb' (8 * k) 8 := by
  apply BitVec.eq_of_toNat_eq
  simp [BitVec.extractLsb'_toNat, Nat.shiftRight_eq_div_pow, Nat.pow_mul]

theorem getElem?_blockBytes (B : Block) (k : Nat) (h : k < 16) : (blockBytes B)[k]? = some (byteOf B k) := by
  rw [blockBytes, getElem?_leBytes, if_pos h, ofNat_div_eq_extract, byteOf]

theorem block_ext_bytes (A B : Block) (h : ∀ k < 16, byteOf A k = byteOf B k) : A = B := by
  rw [← ofBytes_blockBytes A, ← ofBytes_blockBytes B]
  congr 1
  apply List.ext_getElem?
  intro k
  by_cases hk : k < 16
  · rw [getElem?_blockBytes A k hk, getElem?_blockBytes B k hk, h k hk]
  · rw [List.getElem?_eq_none (by simp; omega), List.getElem?_eq_none (by simp; omega)]

theorem byteOf_ofBytes (bs : List Byte) (h : bs.length = 16) (k : Nat) (hk : k < 16) :
    byteOf (ofBytes 128 bs) k = bs[k] := by
  have := getElem?_blockBytes (ofBytes 128 bs) k hk
  rw [blockBytes_ofBytes bs h, List.getElem?_eq_getElem (by omega)] at this
  exact (Option.some.inj this).symm

/-! Bits. -/

theorem testBit_bitsNat (l : List Bool) (i : Nat) : (bitsNat l).testBit i = l.getD i false := by
  induction l generalizing i with
  | nil => simp [bitsNat]
  | cons b l ih =>
    cases i with
    | zero => cases b <;> simp [bitsNat, Nat.testBit_zero]
    | succ i =>
      rw [Nat.testBit_succ, List.getD_cons_succ, ← ih, bitsNat]
      congr 1
      split <;> omega

theorem bit_byteOf (B : Block) (k j : Nat) (hj : j < 8) : (byteOf B k).getLsbD j = bit B (8 * k + j) := by
  simp [byteOf, bit, hj]

theorem bit_nibOf (B : Block) (n j : Nat) (hj : j < 4) : (nibOf B n).getLsbD j = bit B (4 * n + j) := by
  simp [nibOf, bit, hj]

theorem bit_wordOf (B : Block) (k j : Nat) (hj : j < 32) : (wordOf B k).getLsbD j = bit B (32 * k + j) := by
  simp [wordOf, bit, hj]

theorem block_ext (A B : Block) (h : ∀ i < 128, bit A i = bit B i) : A = B :=
  BitVec.eq_of_getLsbD_eq fun i hi => h i hi

/-! Words. -/

theorem bit_blockOf (a b c d : Word) (i : Nat) (hi : i < 128) :
    bit (blockOf a b c d) i =
      if i < 32 then a.getLsbD i else if i < 64 then b.getLsbD (i - 32) else if i < 96 then c.getLsbD (i - 64)
      else d.getLsbD (i - 96) := by
  simp only [bit, blockOf, BitVec.getLsbD_or, BitVec.getLsbD_setWidth, BitVec.getLsbD_shiftLeft, hi, decide_true, Bool.true_and]
  have ha : 32 ≤ i → a.getLsbD i = false := a.getLsbD_of_ge i
  have hb : 64 ≤ i → b.getLsbD (i - 32) = false := fun h => b.getLsbD_of_ge _ (by omega)
  have hc : 96 ≤ i → c.getLsbD (i - 64) = false := fun h => c.getLsbD_of_ge _ (by omega)
  split
  · simp [*, show i < 64 by omega, show i < 96 by omega]
  · split
    · simp [ha (by omega), show i < 96 by omega, *, show i - 32 < 128 by omega]
    · split
      · simp [ha (by omega), hb (by omega), *, show i - 64 < 128 by omega]
      · simp [ha (by omega), hb (by omega), hc (by omega), *, show i - 96 < 128 by omega]

@[simp] theorem wordOf_blockOf_zero (a b c d : Word) : wordOf (blockOf a b c d) 0 = a := by
  apply BitVec.eq_of_getLsbD_eq
  intro j hj
  rw [bit_wordOf _ _ _ hj, bit_blockOf _ _ _ _ _ (by omega), if_pos (by omega)]
  simp

@[simp] theorem wordOf_blockOf_one (a b c d : Word) : wordOf (blockOf a b c d) 1 = b := by
  apply BitVec.eq_of_getLsbD_eq
  intro j hj
  rw [bit_wordOf _ _ _ hj, bit_blockOf _ _ _ _ _ (by omega), if_neg (by omega), if_pos (by omega)]
  simp

@[simp] theorem wordOf_blockOf_two (a b c d : Word) : wordOf (blockOf a b c d) 2 = c := by
  apply BitVec.eq_of_getLsbD_eq
  intro j hj
  rw [bit_wordOf _ _ _ hj, bit_blockOf _ _ _ _ _ (by omega), if_neg (by omega), if_neg (by omega), if_pos (by omega)]
  simp

@[simp] theorem wordOf_blockOf_three (a b c d : Word) : wordOf (blockOf a b c d) 3 = d := by
  apply BitVec.eq_of_getLsbD_eq
  intro j hj
  rw [bit_wordOf _ _ _ hj, bit_blockOf _ _ _ _ _ (by omega), if_neg (by omega), if_neg (by omega), if_neg (by omega)]
  simp

theorem block_ext_words (A B : Block) (h : ∀ k < 4, wordOf A k = wordOf B k) : A = B := by
  apply block_ext
  intro i hi
  have hw := h (i / 32) (by omega)
  have hb := congrArg (fun w : Word => w.getLsbD (i % 32)) hw
  simp only [bit_wordOf _ _ _ (Nat.mod_lt i (by decide : 0 < 32)), Nat.div_add_mod] at hb
  exact hb

@[simp] theorem blockOf_wordOf (B : Block) : blockOf (wordOf B 0) (wordOf B 1) (wordOf B 2) (wordOf B 3) = B := by
  apply block_ext_words
  intro k hk
  match k, hk with
  | 0, _ => simp
  | 1, _ => simp
  | 2, _ => simp
  | 3, _ => simp

@[simp] theorem wordOf_xor (A B : Block) (k : Nat) : wordOf (A ^^^ B) k = wordOf A k ^^^ wordOf B k := by
  simp [wordOf, BitVec.extractLsb'_xor]

theorem blockOf_xor (a b c d a' b' c' d' : Word) :
    blockOf (a ^^^ a') (b ^^^ b') (c ^^^ c') (d ^^^ d') = blockOf a b c d ^^^ blockOf a' b' c' d' := by
  apply block_ext_words
  intro k hk
  match k, hk with
  | 0, _ => simp
  | 1, _ => simp
  | 2, _ => simp
  | 3, _ => simp

theorem rotl_xor (x y : Word) (n : Nat) : rotl (x ^^^ y) n = rotl x n ^^^ rotl y n := by
  apply BitVec.eq_of_getLsbD_eq
  intro i hi
  simp only [rotl, BitVec.getLsbD_xor, BitVec.getLsbD_or, BitVec.getLsbD_shiftLeft, BitVec.getLsbD_ushiftRight]
  by_cases h : i < n
  · simp [h, hi]
  · have : 32 ≤ 32 - n + i := by omega
    simp [h, hi, BitVec.getLsbD_of_ge, this]

theorem rotr_xor (x y : Word) (n : Nat) : rotr (x ^^^ y) n = rotr x n ^^^ rotr y n := by
  apply BitVec.eq_of_getLsbD_eq
  intro i hi
  simp only [rotr, BitVec.getLsbD_xor, BitVec.getLsbD_or, BitVec.getLsbD_shiftLeft, BitVec.getLsbD_ushiftRight]
  by_cases h : i < 32 - n
  · simp [h, hi]
  · have : 32 ≤ n + i := by omega
    simp [h, hi, BitVec.getLsbD_of_ge, this]

theorem shl_xor (x y : Word) (n : Nat) : shl (x ^^^ y) n = shl x n ^^^ shl y n := by
  simp [shl, BitVec.shiftLeft_xor_distrib]

/-- R11: `rotr(rotl(x, n), n) = x`. -/
theorem rotr_rotl (x : Word) (n : Nat) (h : n ≤ 32) : rotr (rotl x n) n = x := by
  apply BitVec.eq_of_getLsbD_eq
  intro i hi
  simp only [rotr, rotl, BitVec.getLsbD_or, BitVec.getLsbD_shiftLeft, BitVec.getLsbD_ushiftRight]
  by_cases hlo : i < 32 - n
  · have h1 : n + i < 32 := by omega
    have h2 : ¬ n + i < n := by omega
    simp [hi, hlo, h1, h2, BitVec.getLsbD_of_ge, show 32 ≤ 32 - n + (n + i) by omega, show n + i - n = i by omega]
  · have h1 : ¬ n + i < 32 := by omega
    have h2 : i - (32 - n) < n := by omega
    have h3 : i - (32 - n) < 32 := by omega
    simp [hi, hlo, h1, h2, BitVec.getLsbD_of_ge, show 32 ≤ 32 - n + (n + i) by omega,
      show 32 - n + (i - (32 - n)) = i by omega]

theorem rotl_rotr (x : Word) (n : Nat) (h : n ≤ 32) : rotl (rotr x n) n = x := by
  apply BitVec.eq_of_getLsbD_eq
  intro i hi
  simp only [rotr, rotl, BitVec.getLsbD_or, BitVec.getLsbD_shiftLeft, BitVec.getLsbD_ushiftRight]
  by_cases hlo : i < n
  · simp [hi, hlo, BitVec.getLsbD_of_ge, show 32 ≤ n + (32 - n + i) by omega, show 32 - n + i < 32 by omega]
  · have h2 : i - n < 32 - n := by omega
    have h3 : 32 ≤ 32 - n + i := by omega
    simp [hi, hlo, h2, show n + (i - n) = i by omega, BitVec.getLsbD_of_ge, show 32 ≤ n + (32 - n + i) by omega,
      show ¬ 32 - n + i < 32 by omega]

end Sys2Proof.Machine
end

