-- ==== Sys2Proof/Laws/Decode.lean ====
section
/-! SUPPORT. What the decoder gives on a channel (30_encoding.md R61, R62, R66, R69). -/

namespace Sys2Proof

open Machine

theorem decode_incomplete (cmd : Byte) (bs : List Byte) (h : bs.length < plen cmd) : decode (cmd :: bs) = .incomplete := by
  rw [decode, if_pos h]

/-- A whole payload is taken and the bytes after it are left. -/
theorem decode_whole (cmd : Byte) (payload rest : List Byte) (h : payload.length = plen cmd) :
    decode (cmd :: (payload ++ rest)) =
      match interpret cmd payload with
      | .ok i => .command i rest
      | .error e => .rejected e rest := by
  have ht : (payload ++ rest).take (plen cmd) = payload := by rw [← h, List.take_left]
  have hd : (payload ++ rest).drop (plen cmd) = rest := by rw [← h, List.drop_left]
  cases hi : interpret cmd payload <;> simp [decode, h, ht, hd, hi]

/-- Everything the decoder can answer on a channel that holds a byte. -/
theorem decode_cons_cases (cmd : Byte) (bs : List Byte) :
    (bs.length < plen cmd ∧ decode (cmd :: bs) = .incomplete) ∨
    ∃ payload rest, bs = payload ++ rest ∧ payload.length = plen cmd ∧
      ((∃ i, interpret cmd payload = .ok i ∧ decode (cmd :: bs) = .command i rest) ∨
        ∃ e, interpret cmd payload = .error e ∧ decode (cmd :: bs) = .rejected e rest) := by
  by_cases h : bs.length < plen cmd
  · exact .inl ⟨h, decode_incomplete cmd bs h⟩
  · have hlen : (bs.take (plen cmd)).length = plen cmd := by simp; omega
    have hd := decode_whole cmd (bs.take (plen cmd)) (bs.drop (plen cmd)) hlen
    rw [List.take_append_drop] at hd
    refine .inr ⟨bs.take (plen cmd), bs.drop (plen cmd), (List.take_append_drop ..).symm, hlen, ?_⟩
    cases hi : interpret cmd (bs.take (plen cmd)) with
    | ok i => exact .inl ⟨i, rfl, by rw [hd, hi]⟩
    | error e => exact .inr ⟨e, rfl, by rw [hd, hi]⟩

@[simp] theorem length_payloadBytes (i : Instr) : (payloadBytes i).length = plen (commandByte i) := by
  cases i <;> simp [payloadBytes, commandByte] <;> decide

end Sys2Proof
end

