-- ==== Sys2Proof/Laws/State.lean ====
section
/-! SUPPORT. What each named update leaves in each field of the state: one lemma a field an update.
`padKey` and `keySchedule` are irreducible: unfold them by `rw`, never by `rfl`. -/

namespace Sys2Proof.Machine

@[simp] theorem respond_key (st : Byte) (d : List Byte) (s : State) : (respond st d s).key = s.key := rfl
@[simp] theorem respond_rk (st : Byte) (d : List Byte) (s : State) : (respond st d s).rk = s.rk := rfl
@[simp] theorem respond_keyValid (st : Byte) (d : List Byte) (s : State) : (respond st d s).keyValid = s.keyValid := rfl
@[simp] theorem respond_temp (st : Byte) (d : List Byte) (s : State) : (respond st d s).temp = s.temp := rfl
@[simp] theorem respond_seq (st : Byte) (d : List Byte) (s : State) : (respond st d s).seq = s.seq := rfl
@[simp] theorem respond_operand (st : Byte) (d : List Byte) (s : State) : (respond st d s).operand = s.operand := rfl
@[simp] theorem respond_cmdChan (st : Byte) (d : List Byte) (s : State) : (respond st d s).cmdChan = s.cmdChan := rfl
@[simp] theorem respond_respChan (st : Byte) (d : List Byte) (s : State) : (respond st d s).respChan = s.respChan ++ st :: d := rfl
@[simp] theorem respond_resetLine (st : Byte) (d : List Byte) (s : State) : (respond st d s).resetLine = s.resetLine := rfl

@[simp] theorem raise_key (e : CmdError) (s : State) : (raise e s).key = s.key := rfl
@[simp] theorem raise_rk (e : CmdError) (s : State) : (raise e s).rk = s.rk := rfl
@[simp] theorem raise_keyValid (e : CmdError) (s : State) : (raise e s).keyValid = s.keyValid := rfl
@[simp] theorem raise_temp (e : CmdError) (s : State) : (raise e s).temp = s.temp := rfl
@[simp] theorem raise_seq (e : CmdError) (s : State) : (raise e s).seq = .idle := rfl
@[simp] theorem raise_operand (e : CmdError) (s : State) : (raise e s).operand = s.operand := rfl
@[simp] theorem raise_cmdChan (e : CmdError) (s : State) : (raise e s).cmdChan = s.cmdChan := rfl
@[simp] theorem raise_respChan (e : CmdError) (s : State) : (raise e s).respChan = s.respChan ++ [errorStatus e] := rfl
@[simp] theorem raise_resetLine (e : CmdError) (s : State) : (raise e s).resetLine = s.resetLine := rfl

@[simp] theorem accept_key (q : Seq) (x : Operand) (s : State) : (accept q x s).key = s.key := rfl
@[simp] theorem accept_rk (q : Seq) (x : Operand) (s : State) : (accept q x s).rk = s.rk := rfl
@[simp] theorem accept_keyValid (q : Seq) (x : Operand) (s : State) : (accept q x s).keyValid = s.keyValid := rfl
@[simp] theorem accept_temp (q : Seq) (x : Operand) (s : State) : (accept q x s).temp = s.temp := rfl
@[simp] theorem accept_seq (q : Seq) (x : Operand) (s : State) : (accept q x s).seq = q := rfl
@[simp] theorem accept_operand (q : Seq) (x : Operand) (s : State) : (accept q x s).operand = x := rfl
@[simp] theorem accept_cmdChan (q : Seq) (x : Operand) (s : State) : (accept q x s).cmdChan = s.cmdChan := rfl
@[simp] theorem accept_respChan (q : Seq) (x : Operand) (s : State) : (accept q x s).respChan = s.respChan := rfl
@[simp] theorem accept_resetLine (q : Seq) (x : Operand) (s : State) : (accept q x s).resetLine = s.resetLine := rfl

@[simp] theorem completeConstruct_key (k : Key) (s : State) : (completeConstruct k s).key = k := rfl
@[simp] theorem completeConstruct_rk (k : Key) (s : State) : (completeConstruct k s).rk = keySchedule config k := rfl
@[simp] theorem completeConstruct_keyValid (k : Key) (s : State) : (completeConstruct k s).keyValid = true := rfl
@[simp] theorem completeConstruct_temp (k : Key) (s : State) : (completeConstruct k s).temp = s.temp := rfl
@[simp] theorem completeConstruct_seq (k : Key) (s : State) : (completeConstruct k s).seq = .idle := rfl
@[simp] theorem completeConstruct_operand (k : Key) (s : State) : (completeConstruct k s).operand = .none := rfl
@[simp] theorem completeConstruct_cmdChan (k : Key) (s : State) : (completeConstruct k s).cmdChan = s.cmdChan := rfl
@[simp] theorem completeConstruct_respChan (k : Key) (s : State) : (completeConstruct k s).respChan = s.respChan ++ [stOk] := rfl
@[simp] theorem completeConstruct_resetLine (k : Key) (s : State) : (completeConstruct k s).resetLine = s.resetLine := rfl

@[simp] theorem finishCipher_key (B : Block) (s : State) : (finishCipher B s).key = s.key := rfl
@[simp] theorem finishCipher_rk (B : Block) (s : State) : (finishCipher B s).rk = s.rk := rfl
@[simp] theorem finishCipher_keyValid (B : Block) (s : State) : (finishCipher B s).keyValid = s.keyValid := rfl
@[simp] theorem finishCipher_temp (B : Block) (s : State) : (finishCipher B s).temp = none := rfl
@[simp] theorem finishCipher_seq (B : Block) (s : State) : (finishCipher B s).seq = .idle := rfl
@[simp] theorem finishCipher_operand (B : Block) (s : State) : (finishCipher B s).operand = s.operand := rfl
@[simp] theorem finishCipher_cmdChan (B : Block) (s : State) : (finishCipher B s).cmdChan = s.cmdChan := rfl
@[simp] theorem finishCipher_respChan (B : Block) (s : State) :
    (finishCipher B s).respChan = s.respChan ++ stOkData :: blockBytes B := rfl
@[simp] theorem finishCipher_resetLine (B : Block) (s : State) : (finishCipher B s).resetLine = s.resetLine := rfl

/-! The updates written out, for rewriting. -/

theorem raise_eq (e : CmdError) (s : State) :
    raise e s = { s with seq := .idle, respChan := s.respChan ++ [errorStatus e] } := rfl

theorem completeConstruct_eq (k : Key) (s : State) :
    completeConstruct k s = { s with
      key := k, rk := keySchedule config k, keyValid := true, seq := .idle, operand := .none,
      respChan := s.respChan ++ [0x00] } := rfl

theorem finishCipher_eq (B : Block) (s : State) :
    finishCipher B s = { s with temp := none, seq := .idle, respChan := s.respChan ++ 0x01 :: blockBytes B } := rfl

end Sys2Proof.Machine
end

