-- ==== Sys2Proof/Laws/Sequencer.lean ====
section
/-! SUPPORT. What one line of the sequencer does in each phase (10_state.md R26, 45_encrypt.md R134, 46_decrypt.md R144), what a
line can do at all, and how runs of lines compose. -/

namespace Sys2Proof.Machine

theorem advance_ks (s : State) (k32 : Key) (hs : s.seq = .ks) (ho : s.operand = .key k32) :
    advance s = .next (completeConstruct k32 s) := by
  simp [advance, hs, ho]

theorem advance_encIp (s : State) (p : Block) (hs : s.seq = .encIp) (ho : s.operand = .block p) :
    advance s = .next { s with temp := some (permute config.ip p), operand := .none, seq := .encRound 0 } := by
  simp [advance, hs, ho]

theorem advance_encRound (s : State) (r : Fin 32) (T : Block) (hs : s.seq = .encRound r) (ht : s.temp = some T) :
    advance s = .next { s with temp := some (encRound config s.rk r T), seq := seqAfterEnc r } := by
  simp [advance, hs, ht]

theorem advance_encFinal (s : State) (T : Block) (hs : s.seq = .encFinal) (ht : s.temp = some T) :
    advance s = .next (finishCipher (permute config.fp (T ^^^ s.rk.get 32)) s) := by
  simp [advance, hs, ht]

theorem advance_decIp (s : State) (c : Block) (hs : s.seq = .decIp) (ho : s.operand = .block c) :
    advance s = .next
      { s with temp := some (permute config.ip c ^^^ s.rk.get 32), operand := .none, seq := .decRound 31 } := by
  simp [advance, hs, ho]

theorem advance_decRound (s : State) (r : Fin 32) (T : Block) (hs : s.seq = .decRound r) (ht : s.temp = some T) :
    advance s = .next { s with temp := some (decRound config s.rk r T), seq := seqAfterDec r } := by
  simp [advance, hs, ht]

theorem advance_decFinal (s : State) (T : Block) (hs : s.seq = .decFinal) (ht : s.temp = some T) :
    advance s = .next (finishCipher (permute config.fp T) s) := by
  simp [advance, hs, ht]

/-- Everything a line can do when it gives a next state. -/
theorem advance_cases {s t : State} (h : advance s = .next t) :
    (s.seq = .idle ∧ t = s) ∨
    (∃ k32, s.seq = .ks ∧ s.operand = .key k32 ∧ t = completeConstruct k32 s) ∨
    (∃ p, s.seq = .encIp ∧ s.operand = .block p ∧
      t = { s with temp := some (permute config.ip p), operand := .none, seq := .encRound 0 }) ∨
    (∃ r T, s.seq = .encRound r ∧ s.temp = some T ∧
      t = { s with temp := some (encRound config s.rk r T), seq := seqAfterEnc r }) ∨
    (∃ T, s.seq = .encFinal ∧ s.temp = some T ∧ t = finishCipher (permute config.fp (T ^^^ s.rk.get 32)) s) ∨
    (∃ c, s.seq = .decIp ∧ s.operand = .block c ∧
      t = { s with temp := some (permute config.ip c ^^^ s.rk.get 32), operand := .none, seq := .decRound 31 }) ∨
    (∃ r T, s.seq = .decRound r ∧ s.temp = some T ∧
      t = { s with temp := some (decRound config s.rk r T), seq := seqAfterDec r }) ∨
    (∃ T, s.seq = .decFinal ∧ s.temp = some T ∧ t = finishCipher (permute config.fp T) s) := by
  unfold advance at h
  split at h
  case h_1 hs => cases h; exact .inl ⟨hs, rfl⟩
  case h_2 k hs ho => cases h; exact .inr (.inl ⟨k, hs, ho, rfl⟩)
  case h_3 p hs ho => cases h; exact .inr (.inr (.inl ⟨p, hs, ho, rfl⟩))
  case h_4 r T hs ht => cases h; exact .inr (.inr (.inr (.inl ⟨r, T, hs, ht, rfl⟩)))
  case h_5 T hs ht => cases h; exact .inr (.inr (.inr (.inr (.inl ⟨T, hs, ht, rfl⟩))))
  case h_6 c hs ho => cases h; exact .inr (.inr (.inr (.inr (.inr (.inl ⟨c, hs, ho, rfl⟩)))))
  case h_7 r T hs ht => cases h; exact .inr (.inr (.inr (.inr (.inr (.inr (.inl ⟨r, T, hs, ht, rfl⟩))))))
  case h_8 T hs ht => cases h; exact .inr (.inr (.inr (.inr (.inr (.inr (.inr ⟨T, hs, ht, rfl⟩))))))
  case h_9 => cases h

/-- A line refuses nothing. -/
theorem advance_ne_refused (s : State) (r : Refusal) : advance s ≠ .refused r := by
  unfold advance
  split <;> simp

/-- The frame of a line: the channel it does not read and the reset input. -/
theorem advance_frame {s t : State} (h : advance s = .next t) : t.cmdChan = s.cmdChan ∧ t.resetLine = s.resetLine := by
  obtain ⟨-, rfl⟩ | ⟨_, -, -, rfl⟩ | ⟨_, -, -, rfl⟩ | ⟨_, _, -, -, rfl⟩ | ⟨_, -, -, rfl⟩ | ⟨_, -, -, rfl⟩ |
    ⟨_, _, -, -, rfl⟩ | ⟨_, -, -, rfl⟩ := advance_cases h <;> exact ⟨rfl, rfl⟩

theorem runSeq_of_advance {s t : State} (n : Nat) (h : advance s = .next t) : runSeq (n + 1) s = runSeq n t := by
  rw [runSeq, h]

/-- Runs of lines compose. -/
theorem runSeq_add {s t : State} (m n : Nat) (h : runSeq m s = .next t) : runSeq (m + n) s = runSeq n t := by
  induction m generalizing s with
  | zero =>
    cases h
    rw [Nat.zero_add]
  | succ m ih =>
    rw [runSeq] at h
    rw [show m + 1 + n = m + n + 1 by omega, runSeq]
    split at h <;> simp_all

/-- A run of lines refuses nothing. -/
theorem runSeq_ne_refused (n : Nat) (s : State) (r : Refusal) : runSeq n s ≠ .refused r := by
  induction n generalizing s with
  | zero => simp [runSeq]
  | succ n ih =>
    rw [runSeq]
    split
    case h_1 => exact ih _
    case h_2 => simp
    case h_3 h => exact absurd h (advance_ne_refused s _)

/-- The last line of a run. -/
theorem runSeq_succ {s t : State} (n : Nat) (h : runSeq n s = .next t) : runSeq (n + 1) s = advance t := by
  rw [runSeq_add n 1 h, runSeq]
  cases advance t <;> rfl

end Sys2Proof.Machine
end

