-- ==== Sys2Proof/Laws/Step.lean ====
section
/-! SUPPORT. What a step, a command and its run can do: the case lemmas the statements about steps rest on. -/

namespace Sys2Proof.Machine

theorem step_reset (s : State) (h : s.resetLine = true) : step s = .next .reset := by
  simp [step, resetEvent, h]

theorem step_idle (s : State) (hr : s.resetLine = false) (hs : s.seq = .idle) : step s = runCommand s := by
  simp [step, hr, hs]

theorem step_running (s : State) (hr : s.resetLine = false) (hs : s.seq ≠ .idle) : step s = advance s := by
  simp [step, hr, hs]

/-- Everything a step can do when it gives a next state. -/
theorem step_cases {s t : State} (h : step s = .next t) :
    (s.resetLine = true ∧ t = .reset) ∨
    (s.resetLine = false ∧ s.seq = .idle ∧ ∃ i rest, decode s.cmdChan = .command i rest ∧
      exec i { s with cmdChan := rest } = .next t) ∨
    (s.resetLine = false ∧ s.seq = .idle ∧ ∃ e rest, decode s.cmdChan = .rejected e rest ∧
      t = raise e { s with cmdChan := rest }) ∨
    (s.resetLine = false ∧ s.seq ≠ .idle ∧ advance s = .next t) := by
  by_cases hr : s.resetLine = true
  · rw [step_reset s hr] at h
    cases h
    exact .inl ⟨hr, rfl⟩
  · have hr : s.resetLine = false := by simpa using hr
    by_cases hs : s.seq = .idle
    · rw [step_idle s hr hs, runCommand] at h
      cases hd : decode s.cmdChan with
      | empty => simp [hd] at h
      | incomplete => simp [hd] at h
      | command i rest =>
        simp only [hd] at h
        exact .inr (.inl ⟨hr, hs, i, rest, rfl, h⟩)
      | rejected e rest =>
        simp only [hd] at h
        cases h
        exact .inr (.inr (.inl ⟨hr, hs, e, rest, rfl, rfl⟩))
    · exact .inr (.inr (.inr ⟨hr, hs, by rwa [step_running s hr hs] at h⟩))

/-- The run of a CONSTRUCT: one line of the sequencer. -/
theorem construct_eq (k32 : Key) (s : State) : construct k32 s = .next (completeConstruct k32 s) := by
  rw [construct, runSeq_of_advance 0 (advance_ks _ k32 rfl rfl)]
  rfl

theorem withKeyValid_true (s : State) (f : State → Host.Outcome State Fault Refusal) (h : s.keyValid = true) :
    withKeyValid s f = f s := by
  simp [withKeyValid, h]

theorem withKeyValid_false (s : State) (f : State → Host.Outcome State Fault Refusal) (h : s.keyValid = false) :
    withKeyValid s f = .next (raise .noKey s) := by
  simp [withKeyValid, h]

end Sys2Proof.Machine
end

