-- ==== Sys2Proof/Laws/Exec.lean ====
section
/-! SUPPORT. The three CONSTRUCT commands as `CompleteConstruct` of a Key (41_key_construction.md R90 to R93), a cipher command
without a key (60_exceptions.md R153), and that no command and no step is refused. -/

namespace Sys2Proof.Machine

theorem exec_construct128_eq (k : BitVec 128) (s : State) :
    exec (.construct128 k) s = .next (completeConstruct (padKey config 16 k) s) := construct_eq _ _

theorem exec_construct192_eq (k : BitVec 192) (s : State) :
    exec (.construct192 k) s = .next (completeConstruct (padKey config 24 k) s) := construct_eq _ _

theorem exec_construct256_eq (k : BitVec 256) (s : State) :
    exec (.construct256 k) s = .next (completeConstruct k s) := construct_eq _ _

theorem exec_encrypt_noKey (p : BitVec 128) (s : State) (h : s.keyValid = false) :
    exec (.encrypt p) s = .next (raise .noKey s) := by
  rw [exec, execEncrypt, withKeyValid_false s _ h]

theorem exec_decrypt_noKey (c : BitVec 128) (s : State) (h : s.keyValid = false) :
    exec (.decrypt c) s = .next (raise .noKey s) := by
  rw [exec, execDecrypt, withKeyValid_false s _ h]

theorem exec_ne_refused (i : Instr) (s : State) (r : Refusal) : exec i s ≠ .refused r := by
  cases i with
  | construct128 k => simp [exec_construct128_eq]
  | construct192 k => simp [exec_construct192_eq]
  | construct256 k => simp [exec_construct256_eq]
  | encrypt p =>
    rw [exec, execEncrypt, withKeyValid]
    split
    · exact runSeq_ne_refused _ _ r
    · simp
  | decrypt c =>
    rw [exec, execDecrypt, withKeyValid]
    split
    · exact runSeq_ne_refused _ _ r
    · simp

theorem step_ne_refused (s : State) (r : Refusal) : step s ≠ .refused r := by
  rw [step]
  split
  · simp
  · split
    · rw [runCommand]
      split <;> simp [exec_ne_refused]
    · exact advance_ne_refused s r

end Sys2Proof.Machine
end

