-- ==== Sys2Proof/Laws/KeySchedule.lean ====
section
/-! SUPPORT. What an entry of the round-key file is (42_key_schedule.md R105) and what the chunks are (R102). -/

namespace Sys2Proof.Machine

theorem get_mk_toArray {n : Nat} (l : List Block) (h : l.toArray.size = n) (i : Fin n) :
    l[i.val]? = some ((⟨l.toArray, h⟩ : Vector Block n).get i) := by
  rw [List.getElem?_eq_some_iff]
  exact ⟨by simpa [← h] using i.isLt, rfl⟩

/-- Entry `i` of `KeySchedule(K32)` is round key `i` of the list. -/
theorem getElem?_roundKeys (c : Config) (K : Key) (i : Fin 33) : (roundKeys c K)[i.val]? = some ((keySchedule c K).get i) := by
  rw [keySchedule]
  exact get_mk_toArray _ _ i

/-- R102: chunk `i` is made of the words `w[4i] .. w[4i+3]`. -/
theorem getElem?_chunks (ws : List Word) (i : Nat) (w0 w1 w2 w3 : Word) (h0 : ws[4 * i]? = some w0)
    (h1 : ws[4 * i + 1]? = some w1) (h2 : ws[4 * i + 2]? = some w2) (h3 : ws[4 * i + 3]? = some w3) :
    (chunks ws)[i]? = some (blockOf w0 w1 w2 w3) := by
  induction i generalizing ws with
  | zero =>
    match ws with
    | _ :: _ :: _ :: _ :: _ => simp_all [chunks]
  | succ i ih =>
    match ws with
    | _ :: _ :: _ :: _ :: ws =>
      rw [chunks, List.getElem?_cons_succ]
      exact ih ws h0 h1 h2 h3

end Sys2Proof.Machine
end

