-- ==== Sys2Proof/Laws/PerInstr.lean ====
section
/-! SUPPORT. The per-instruction family `EncodedLength` (30_encoding.md R62, R69): the command byte alone fixes how many bytes a
command takes. -/

namespace Sys2Proof.Laws.EncodedLength

/-- A command is one byte and the `PLEN` bytes its command byte announces. -/
def Statement (i : Instr) : Prop := (encode i).length = 1 + plen (commandByte i)

theorem construct128 (k : BitVec 128) : Statement (.construct128 k) := by simp [Statement, encode, Nat.add_comm]

theorem construct192 (k : BitVec 192) : Statement (.construct192 k) := by simp [Statement, encode, Nat.add_comm]

theorem construct256 (k : BitVec 256) : Statement (.construct256 k) := by simp [Statement, encode, Nat.add_comm]

theorem encrypt (p : BitVec 128) : Statement (.encrypt p) := by simp [Statement, encode, Nat.add_comm]

theorem decrypt (c : BitVec 128) : Statement (.decrypt c) := by simp [Statement, encode, Nat.add_comm]

end Sys2Proof.Laws.EncodedLength
end

