-- ==== Sys2Proof/Laws/Rounds.lean ====
section
/-! SUPPORT. One more round of the two cipher sequences (45_encrypt.md R130, 46_decrypt.md R140). -/

namespace Sys2Proof.Machine

theorem encTemp_succ (c : Config) (rk : Vector Block 33) (P : Block) (n : Nat) (h : n < 32) :
    encTemp c rk P (n + 1) = encRound c rk ⟨n, h⟩ (encTemp c rk P n) := by
  rw [encTemp, List.take_add_one, List.foldl_append, encTemp, List.getElem?_eq_getElem (by simpa using h)]
  simp

theorem decTemp_succ (c : Config) (rk : Vector Block 33) (C : Block) (n : Nat) (h : n < 32) :
    decTemp c rk C (n + 1) = decRound c rk ⟨31 - n, by omega⟩ (decTemp c rk C n) := by
  rw [decTemp, List.take_add_one, List.foldl_append, decTemp, List.getElem?_eq_getElem (by simpa using h)]
  simp [List.getElem_reverse]

end Sys2Proof.Machine
end

