-- ==== Sys2Proof/Laws/Run.lean ====
section
/-! SUPPORT. What an input does to a run and to what is observable of it (70_reset_and_hazards.md R171, R180), and that nothing
observable depends on what `KEY` and `RK` hold before a key is constructed (10_state.md R32, R180). -/

namespace Sys2Proof.Machine

open Safety

/-! ## The parts of a run -/

@[simp] theorem feed_taken (x : Input) (r : Run) : (feed x r).taken = r.taken ++ handedOver x r.core := rfl

@[simp] theorem handedOver_byte (b : Byte) (s : State) : handedOver (.byte b) s = [] := rfl

@[simp] theorem handedOver_reset (s : State) : handedOver .reset s = [] := rfl

@[simp] theorem handedOver_take (s : State) : handedOver .take s = s.respChan.take 1 := rfl

@[simp] theorem takeAll_taken (r : Run) : (takeAll r).taken = r.taken ++ r.core.respChan := rfl

@[simp] theorem takeAll_core (r : Run) : (takeAll r).core = { r.core with respChan := [] } := rfl

theorem runInputs_cons (x : Input) (xs : List Input) (r : Run) : runInputs (x :: xs) r = runInputs xs (feed x r) := rfl

theorem runInputs_append (xs ys : List Input) (r : Run) : runInputs (xs ++ ys) r = runInputs ys (runInputs xs r) :=
  List.foldl_append

theorem runEvents_append (es fs : List RunEvent) (r : Run) : runEvents (es ++ fs) r = runEvents fs (runEvents es r) :=
  List.foldl_append

/-- What the requester has taken is final: later inputs, reset among them, only add to it. -/
theorem runInputs_taken (xs : List Input) (r : Run) : ∃ out, (runInputs xs r).taken = r.taken ++ out := by
  induction xs generalizing r with
  | nil => exact ⟨[], (List.append_nil _).symm⟩
  | cons x xs ih =>
    obtain ⟨out, h⟩ := ih (feed x r)
    exact ⟨handedOver x r.core ++ out, by rw [runInputs_cons, h, feed_taken, List.append_assoc]⟩

theorem runEvents_taken (es : List RunEvent) (r : Run) : ∃ out, (runEvents es r).taken = r.taken ++ out := by
  induction es generalizing r with
  | nil => exact ⟨[], (List.append_nil _).symm⟩
  | cons e es ih =>
    obtain ⟨out, h⟩ := ih (takeAll (feed (inputOf e) r))
    exact ⟨handedOver (inputOf e) r.core ++ ((feed (inputOf e) r).core.respChan ++ out), by
      rw [runEvents, List.foldl_cons, ← runEvents, h]; simp⟩

/-- A prefix of a run shows a prefix of what the run shows. -/
theorem observed_append (es fs : List RunEvent) : ∃ out, observed (es ++ fs) = observed es ++ out := by
  rw [observed, runEvents_append]
  exact runEvents_taken fs _

/-! ## Settling and taking -/

theorem settle_of_next {s t : State} (n : Nat) (h : step s = .next t) : settle (n + 1) s = settle n t := by
  rw [settle, h]

theorem settle_of_fault {s : State} {f : Fault} (n : Nat) (h : step s = .fault f) : settle n s = s := by
  cases n with
  | zero => rfl
  | succ n => rw [settle, h]

/-- A core that waits goes on waiting when its response channel is read. -/
theorem step_of_waiting {s : State} (h : Quiescent s ∨ Waiting s) (bs : List (BitVec 8)) :
    ∃ f, step { s with respChan := bs } = .fault f := by
  obtain ⟨hr, hs, hc⟩ | ⟨hr, hs, hc⟩ := h
  · exact ⟨.quiescent, by
      rw [step_idle { s with respChan := bs } hr hs, runCommand]; simp [hc, decode]⟩
  · exact ⟨.awaitingPayload, by
      rw [step_idle { s with respChan := bs } hr hs, runCommand]; simp [hc]⟩

/-- Taking every byte is one `take` after another, the core waiting. -/
theorem takeAll_eq_takes (r : Run) (h : Quiescent r.core ∨ Waiting r.core) :
    takeAll r = runInputs (List.replicate r.core.respChan.length .take) r := by
  obtain ⟨s, taken⟩ := r
  generalize hb : s.respChan = bs
  induction bs generalizing s taken with
  | nil => cases s; simp_all [takeAll, runInputs]
  | cons b bs ih =>
    have hf : feed .take ⟨s, taken⟩ = ⟨{ s with respChan := bs }, taken ++ [b]⟩ := by
      obtain ⟨f, hf⟩ := step_of_waiting h bs
      simp [feed, applyInput, hb, settle_of_fault _ hf]
    rw [List.length_cons, List.replicate_succ, runInputs_cons, hf, ← ih { s with respChan := bs } _ h rfl]
    simp [takeAll, hb]

/-! ## Nothing observable depends on an unwritten `KEY` or `RK` -/

/-- Equal, or both without a key and equal but for `KEY` and `RK`, no cipher command in execution. -/
def SameButUnwritten (s t : State) : Prop :=
  s = t ∨ s.keyValid = false ∧ (s.seq = .idle ∨ s.seq = .ks) ∧ ∃ key rk, t = { s with key := key, rk := rk }

theorem SameButUnwritten.respChan {s t : State} (h : SameButUnwritten s t) : s.respChan = t.respChan := by
  obtain rfl | ⟨-, -, _, _, rfl⟩ := h <;> rfl

theorem SameButUnwritten.cmdChan {s t : State} (h : SameButUnwritten s t) : s.cmdChan = t.cmdChan := by
  obtain rfl | ⟨-, -, _, _, rfl⟩ := h <;> rfl

theorem completeConstruct_unwritten (k32 : Key) (s : State) (key : Key) (rk : Vector Block 33) :
    completeConstruct k32 { s with key := key, rk := rk } = completeConstruct k32 s := by
  rw [completeConstruct_eq, completeConstruct_eq]

/-- Without a key every command is a CONSTRUCT or is rejected with NoKey. -/
theorem exec_cases_unkeyed (i : Instr) :
    (∃ k32, ∀ s, exec i s = .next (completeConstruct k32 s)) ∨ ∀ s, s.keyValid = false → exec i s = .next (raise .noKey s) := by
  cases i with
  | construct128 k => exact .inl ⟨_, exec_construct128_eq k⟩
  | construct192 k => exact .inl ⟨_, exec_construct192_eq k⟩
  | construct256 k => exact .inl ⟨_, exec_construct256_eq k⟩
  | encrypt p => exact .inr fun s h => exec_encrypt_noKey p s h
  | decrypt c => exact .inr fun s h => exec_decrypt_noKey c s h

/-- Both states step to such states again, or neither steps. -/
theorem SameButUnwritten.step {s t : State} (h : SameButUnwritten s t) :
    (∃ s' t', step s = .next s' ∧ step t = .next t' ∧ SameButUnwritten s' t') ∨
      ∃ f, step s = .fault f ∧ step t = .fault f := by
  obtain rfl | ⟨hk, hq, key, rk, rfl⟩ := h
  · cases hs : Machine.step s with
    | next s' => exact .inl ⟨s', s', rfl, rfl, .inl rfl⟩
    | fault f => exact .inr ⟨f, rfl, rfl⟩
    | refused r => exact absurd hs (step_ne_refused s r)
  · by_cases hr : s.resetLine = true
    · exact .inl ⟨_, _, step_reset s hr, step_reset _ hr, .inl rfl⟩
    · have hr : s.resetLine = false := by simpa using hr
      obtain hs | hs := hq
      · rw [step_idle s hr hs, step_idle { s with key := key, rk := rk } hr hs, runCommand, runCommand]
        cases decode s.cmdChan with
        | empty => exact .inr ⟨_, rfl, rfl⟩
        | incomplete => exact .inr ⟨_, rfl, rfl⟩
        | rejected e rest => exact .inl ⟨_, _, rfl, rfl, .inr ⟨hk, .inl rfl, key, rk, rfl⟩⟩
        | command i rest =>
          obtain ⟨k32, hi⟩ | hi := exec_cases_unkeyed i
          · exact .inl ⟨_, _, hi _, hi _, .inl (completeConstruct_unwritten k32 { s with cmdChan := rest } key rk).symm⟩
          · exact .inl ⟨_, _, hi _ hk, hi _ hk, .inr ⟨hk, .inl rfl, key, rk, rfl⟩⟩
      · rw [step_running s hr (by simp [hs]), step_running { s with key := key, rk := rk } hr (by simp [hs])]
        have ho : (∃ k32, s.operand = .key k32) ∨ ∀ k32, s.operand ≠ .key k32 := by cases s.operand <;> simp
        obtain ⟨k32, ho⟩ | ho := ho
        · exact .inl ⟨_, _, advance_ks s k32 hs ho, advance_ks { s with key := key, rk := rk } k32 hs ho,
            .inl (completeConstruct_unwritten k32 s key rk).symm⟩
        · exact .inr ⟨.noValue, by rw [advance]; split <;> simp_all, by rw [advance]; split <;> simp_all⟩

theorem SameButUnwritten.settle {s t : State} (n : Nat) (h : SameButUnwritten s t) :
    SameButUnwritten (settle n s) (settle n t) := by
  induction n generalizing s t with
  | zero => exact h
  | succ n ih =>
    obtain ⟨s', t', hs, ht, h'⟩ | ⟨f, hs, ht⟩ := h.step
    · rw [settle_of_next n hs, settle_of_next n ht]
      exact ih h'
    · rw [settle_of_fault _ hs, settle_of_fault _ ht]
      exact h

theorem SameButUnwritten.applyInput {s t : State} (x : Input) (h : SameButUnwritten s t) :
    SameButUnwritten (applyInput x s) (applyInput x t) := by
  obtain rfl | ⟨hk, hq, key, rk, rfl⟩ := h
  · exact .inl rfl
  · cases x <;> exact .inr ⟨hk, hq, key, rk, rfl⟩

/-- R180, log entry 1: what a requester takes in a run does not depend on what `KEY` and `RK` hold while no key is loaded. -/
theorem runInputs_unwritten (xs : List Input) {s t : State} (bs : List Byte) (h : SameButUnwritten s t) :
    (runInputs xs ⟨s, bs⟩).taken = (runInputs xs ⟨t, bs⟩).taken := by
  induction xs generalizing s t bs with
  | nil => rfl
  | cons x xs ih =>
    have hx := h.applyInput x
    have hb : settleBound (Machine.applyInput x s) = settleBound (Machine.applyInput x t) := by
      rw [settleBound, settleBound, hx.cmdChan]
    have hh : handedOver x s = handedOver x t := by
      cases x <;> simp [h.respChan]
    rw [runInputs_cons, runInputs_cons, feed, feed, hb, hh]
    exact ih _ (hx.settle _)

end Sys2Proof.Machine
end

