-- ==== Sys2Proof/Laws/TableSet.lean ====
section
/-! SUPPORT. What the table reads and `Permute` give, and that this core's `Config` is admitted (40_table_set.md R83, R87). -/

namespace Sys2Proof.Machine

theorem bit_ofBits (l : List Bool) (i : Nat) (hi : i < 128) : bit (BitVec.ofNat 128 (bitsNat l)) i = l.getD i false := by
  rw [bit, BitVec.getLsbD_ofNat, testBit_bitsNat]
  simp [hi]

/-- R83: output bit `i` of `Permute(T, B)` is input bit `T[i]`. -/
theorem bit_permute (T : BitTable) (B : Block) (i : Fin 128) : bit (permute T B) i.val = bit B (T.get i).val := by
  rw [permute, bit_ofBits _ _ i.isLt]
  simp [List.getD_eq_getElem?_getD, Vector.get]

theorem config_fpInverts : config.FpInverts := by decide +kernel

theorem config_ipPermutes : config.IpPermutes := fun i j h => by
  rw [← config_fpInverts.1 i, ← config_fpInverts.1 j, h]

theorem config_boxesPermute : config.BoxesPermute := by decide +kernel

theorem config_inverseBoxes : config.InverseBoxes := by decide +kernel

/-- R87: the defaults of R81 to R85 satisfy (a) to (d). -/
theorem config_admitted : config.Admitted :=
  ⟨config_ipPermutes, config_fpInverts, config_boxesPermute, config_inverseBoxes⟩

theorem sboxInvRead_sboxRead {c : Config} (h : c.Admitted) (b : Fin 8) (x : Nibble) :
    sboxInvRead c b (sboxRead c b x) = x := (h.inverseBoxes b x).1

theorem sboxRead_sboxInvRead {c : Config} (h : c.Admitted) (b : Fin 8) (x : Nibble) :
    sboxRead c b (sboxInvRead c b x) = x := (h.inverseBoxes b x).2

end Sys2Proof.Machine
end

