-- ==== Sys2Proof/Laws/Substitution.lean ====
section
/-! SUPPORT. What the S-box layers give byte by byte (43_substitution.md R110, R111, R114). -/

namespace Sys2Proof.Machine

theorem bit_subByte (t : Nibble → Nibble) (x : Byte) (i : Nat) (hi : i < 8) :
    (subByte t x).getLsbD i =
      if i < 4 then (t (x.extractLsb' 0 4)).getLsbD i else (t (x.extractLsb' 4 4)).getLsbD (i - 4) := by
  simp only [subByte, BitVec.getLsbD_or, BitVec.getLsbD_setWidth, BitVec.getLsbD_shiftLeft, hi, decide_true, Bool.true_and]
  split
  · simp [*]
  · rw [BitVec.getLsbD_of_ge _ i (by omega)]
    simp [*, show i - 4 < 8 by omega]

theorem subByte_low (t : Nibble → Nibble) (x : Byte) : (subByte t x).extractLsb' 0 4 = t (x.extractLsb' 0 4) := by
  apply BitVec.eq_of_getLsbD_eq
  intro i hi
  rw [BitVec.getLsbD_extractLsb', bit_subByte _ _ _ (by omega), if_pos (by omega)]
  simp [hi]

theorem subByte_high (t : Nibble → Nibble) (x : Byte) : (subByte t x).extractLsb' 4 4 = t (x.extractLsb' 4 4) := by
  apply BitVec.eq_of_getLsbD_eq
  intro i hi
  rw [BitVec.getLsbD_extractLsb', bit_subByte _ _ _ (by omega), if_neg (by omega)]
  simp [hi]

theorem byte_ext_nibbles (x y : Byte) (hl : x.extractLsb' 0 4 = y.extractLsb' 0 4)
    (hh : x.extractLsb' 4 4 = y.extractLsb' 4 4) : x = y := by
  apply BitVec.eq_of_getLsbD_eq
  intro i hi
  by_cases h : i < 4
  · have := congrArg (fun v : Nibble => v.getLsbD i) hl
    simpa [h] using this
  · have := congrArg (fun v : Nibble => v.getLsbD (i - 4)) hh
    simpa [show i - 4 < 4 by omega, show 4 + (i - 4) = i by omega] using this

/-- A table undone by another, lane by lane. -/
theorem subByte_inverse (t u : Nibble → Nibble) (h : ∀ y, t (u y) = y) (x : Byte) : subByte t (subByte u x) = x := by
  apply byte_ext_nibbles
  · rw [subByte_low, subByte_low, h]
  · rw [subByte_high, subByte_high, h]

/-- R110, byte by byte. -/
theorem blockBytes_subLayer (c : Config) (b : Fin 8) (B : Block) :
    blockBytes (subLayer c b B) = (blockBytes B).map (subByte (sboxRead c b)) :=
  blockBytes_ofBytes _ (by simp)

/-- R111, byte by byte. -/
theorem blockBytes_invSubLayer (c : Config) (b : Fin 8) (B : Block) :
    blockBytes (invSubLayer c b B) = (blockBytes B).map (subByte (sboxInvRead c b)) :=
  blockBytes_ofBytes _ (by simp)

theorem byteOf_eq_getElem (B : Block) (k : Nat) (h : k < 16) : some (byteOf B k) = (blockBytes B)[k]? :=
  (getElem?_blockBytes B k h).symm

theorem byteOf_subLayer (c : Config) (b : Fin 8) (B : Block) (k : Nat) (h : k < 16) :
    byteOf (subLayer c b B) k = subByte (sboxRead c b) (byteOf B k) := by
  apply Option.some.inj
  rw [byteOf_eq_getElem _ _ h, blockBytes_subLayer, List.getElem?_map, getElem?_blockBytes _ _ h]
  rfl

theorem byteOf_invSubLayer (c : Config) (b : Fin 8) (B : Block) (k : Nat) (h : k < 16) :
    byteOf (invSubLayer c b B) k = subByte (sboxInvRead c b) (byteOf B k) := by
  apply Option.some.inj
  rw [byteOf_eq_getElem _ _ h, blockBytes_invSubLayer, List.getElem?_map, getElem?_blockBytes _ _ h]
  rfl

/-- Nibble `n` is the low half of byte `n / 2` for even `n` and the high half for odd `n` (R13). -/
theorem nibOf_eq (B : Block) (n : Nat) : nibOf B n = (byteOf B (n / 2)).extractLsb' (4 * (n % 2)) 4 := by
  apply BitVec.eq_of_getLsbD_eq
  intro i hi
  rw [bit_nibOf _ _ _ hi, BitVec.getLsbD_extractLsb', bit_byteOf _ _ _ (by omega)]
  simp [hi, show 8 * (n / 2) + (4 * (n % 2) + i) = 4 * n + i by omega]

/-- R114: bit `j` of word `k` of the result is bit `k` of the substituted slice `j`. -/
theorem bit_slicedWord (c : Config) (b : Fin 8) (B : Block) (k j : Nat) (hj : j < 32) :
    (slicedWord c b B k).getLsbD j = (sboxRead c b (sliceOf B j)).getLsbD k := by
  rw [slicedWord, BitVec.getLsbD_ofNat, testBit_bitsNat, List.getD_eq_getElem?_getD, List.getElem?_map,
    List.getElem?_range hj]
  simp [hj]

theorem bit_sliceOf (B : Block) (j k : Nat) (hk : k < 4) : (sliceOf B j).getLsbD k = (wordOf B k).getLsbD j := by
  rw [sliceOf, BitVec.getLsbD_ofNat, testBit_bitsNat]
  match k, hk with
  | 0, _ => simp
  | 1, _ => simp
  | 2, _ => simp
  | 3, _ => simp

end Sys2Proof.Machine
end

