-- ==== Sys2Proof/Tests/Slice0.lean ====
section
/-! SUPPORT. The model's own tests: ill-formed Configs, decoding of words written out from the spec, one or two single steps an
instruction with the vectors of 95_test_vectors.md and 96_test_vectors_cipher.md, and for every obligation with hypotheses a
witness that meets them. -/

namespace Sys2Proof.Tests

open Machine Safety

-- One theorem at a time: each evaluation waits for the kernel, and waiting threads cost memory.
set_option Elab.async false

/-! ## The states of the tests -/

/-- Idle and without a key. -/
def bare : State where
  key := 0
  rk := Vector.replicate 33 0
  keyValid := false
  temp := none
  seq := .idle
  operand := .none
  cmdChan := []
  respChan := []
  resetLine := false

/-- `KZ` padded (R92): sixteen zero bytes, the marker, fifteen zero bytes. -/
def kz : Key := 0xF0 <<< 128

/-- Keyed with `KZ`. -/
def keyed : State := { bare with key := kz, rk := keySchedule config kz, keyValid := true }

/-- `bare` with bytes on the command channel. -/
def fed (bs : List Byte) : State := { bare with cmdChan := bs }

/-- The Block of sixteen bytes, byte 0 first. -/
def blk (bs : List Byte) : Block := ofBytes 128 bs

def PAT : Block := blk [0x01, 0x23, 0x45, 0x67, 0x89, 0xab, 0xcd, 0xef, 0xfe, 0xdc, 0xba, 0x98, 0x76, 0x54, 0x32, 0x10]

def PT : Block := blk [0x00, 0x11, 0x22, 0x33, 0x44, 0x55, 0x66, 0x77, 0x88, 0x99, 0xaa, 0xbb, 0xcc, 0xdd, 0xee, 0xff]

def SEQ16 : Block := blk [0x00, 0x01, 0x02, 0x03, 0x04, 0x05, 0x06, 0x07, 0x08, 0x09, 0x0a, 0x0b, 0x0c, 0x0d, 0x0e, 0x0f]

/-- The ciphertext of the zero Block under `KZ` (96_test_vectors_cipher.md 2.7). -/
def czBytes : List Byte := [0x32, 0x05, 0x2d, 0x54, 0xa1, 0x85, 0x5d, 0x6f, 0x21, 0xf8, 0x23, 0xc9, 0x7a, 0x82, 0x36, 0x28]

/-- What a question on the next state of an outcome answers, `none` where there is no next state. -/
def onNext {α : Type} (f : State → α) : Host.Outcome State Fault Refusal → Option α
  | .next t => some (f t)
  | _ => none

/-! ## Ill-formed Configs, one for each check of R87 -/

theorem test_ip_with_a_collision_refused : ¬ ({ config with ip := config.ip.set 5 (config.ip.get 6) } : Config).IpPermutes :=
  fun h => absurd (h 5 6 (by decide +kernel)) (by decide)

theorem test_fp_that_is_no_inverse_refused : ¬ ({ config with fp := config.ip } : Config).FpInverts := by decide +kernel

theorem test_box_with_a_collision_refused :
    ¬ ({ config with sbox := config.sbox.set 7 (Vector.replicate 16 3) } : Config).BoxesPermute := by decide +kernel

theorem test_swapped_inverse_boxes_refused :
    ¬ ({ config with sboxInv := config.sbox } : Config).InverseBoxes := by decide +kernel

/-! ## Decoding (R61, R62, R66, R67): words written out from the tables of the spec -/

/-- CONSTRUCT128 is op 0 with klen 16: `00 010000`. -/
theorem test_decode_construct128 :
    decode (0b00010000 :: [0xa0, 0xa1, 0xa2, 0xa3, 0xa4, 0xa5, 0xa6, 0xa7, 0xa8, 0xa9, 0xaa, 0xab, 0xac, 0xad, 0xae, 0xaf, 0x40])
      = .command (.construct128 0xafaeadacabaaa9a8a7a6a5a4a3a2a1a0) [0x40] := by decide +kernel

/-- CONSTRUCT192 is op 0 with klen 24: `00 011000`. -/
theorem test_decode_construct192 :
    decode (0b00011000 :: 0x01 :: List.replicate 22 0 ++ [0x80]) = .command (.construct192 (1#192 ||| 0x80#192 <<< 184)) [] := by
  decide +kernel

/-- CONSTRUCT256 is op 0 with klen 32: `00 100000`. -/
theorem test_decode_construct256 :
    decode (0b00100000 :: 0x01 :: List.replicate 30 0 ++ [0x80]) = .command (.construct256 (1#256 ||| 0x80#256 <<< 248)) [] := by
  decide +kernel

/-- ENCRYPT is op 1 with klen 0: `01 000000`. -/
theorem test_decode_encrypt : decode (0b01000000 :: 0x01 :: List.replicate 14 0 ++ [0x80]) =
    .command (.encrypt (1#128 ||| 0x80#128 <<< 120)) [] := by decide +kernel

/-- DECRYPT is op 2 with klen 0: `10 000000`. -/
theorem test_decode_decrypt : decode (0b10000000 :: 0x01 :: List.replicate 14 0 ++ [0x80]) =
    .command (.decrypt (1#128 ||| 0x80#128 <<< 120)) [] := by decide +kernel

/-- 95_test_vectors.md 2.9: `14` and twenty bytes `40` is one rejected command. -/
theorem test_decode_unsupported_length : decode (0x14 :: List.replicate 20 0x40) = .rejected .invalidKeyLength [] := by
  decide +kernel

/-- 95_test_vectors.md 2.9: `00` consumes no payload; `41` and `ff` are reserved; `80` alone is incomplete. -/
theorem test_decode_edges :
    decode [0x00, 0x41] = .rejected .invalidKeyLength [0x41] ∧ decode [0x41, 0x00] = .rejected .illegalCommand [0x00] ∧
      decode [0xff] = .rejected .illegalCommand [] ∧ decode [0x80] = .incomplete ∧ decode [] = .empty := by decide +kernel

/-- 95_test_vectors.md 2.9, Assembly. -/
theorem test_assemble :
    assemble (.constructN 0 []) = some [.byte 0x00] ∧ assemble (.byte [0xc, 0x0]) = some [.byte 0xc0] ∧
      assemble (.encrypt [0, 0, 1, 1]) = none := by decide +kernel

/-! ## Table Set, S-box layers and linear mixing -/

/-- 95_test_vectors.md 2.2. -/
theorem test_permute : permute config.ip PT =
      blk [0x00, 0xca, 0x00, 0xca, 0x0f, 0xca, 0x0f, 0xca, 0xf0, 0xca, 0xf0, 0xca, 0xff, 0xca, 0xff, 0xca] ∧
    permute config.fp PT =
      blk [0xcc, 0xcc, 0xcc, 0xcc, 0xf0, 0xf0, 0xf0, 0xf0, 0x00, 0xff, 0x00, 0xff, 0x00, 0x00, 0xff, 0xff] := by decide +kernel

/-- 95_test_vectors.md 2.3: `PAT` meets every entry of a box; boxes 0, 3, 5 and 7. -/
theorem test_sub_layer :
    subLayer config 0 PAT =
        blk [0x38, 0xf1, 0xa6, 0x5b, 0xed, 0x42, 0x70, 0x9c, 0xc9, 0x07, 0x24, 0xde, 0xb5, 0x6a, 0x1f, 0x83] ∧
      subLayer config 3 PAT =
        blk [0x0f, 0xb8, 0xc9, 0x63, 0xd1, 0x24, 0xa7, 0x5e, 0xe5, 0x7a, 0x42, 0x1d, 0x36, 0x9c, 0x8b, 0xf0] ∧
      subLayer config 5 PAT =
        blk [0xf5, 0x2b, 0x4a, 0x9c, 0x03, 0xe8, 0xd6, 0x71, 0x17, 0x6d, 0x8e, 0x30, 0xc9, 0xa4, 0xb2, 0x5f] ∧
      subLayer config 7 PAT =
        blk [0x1d, 0xf0, 0xe8, 0x2b, 0x74, 0xca, 0x93, 0x56, 0x65, 0x39, 0xac, 0x47, 0xb2, 0x8e, 0x0f, 0xd1] := by
  decide +kernel

/-- 95_test_vectors.md 2.3: the other boxes, and the inverse layer of box 6. -/
theorem test_sub_layer_more :
    subLayer config 1 PAT =
        blk [0xfc, 0x27, 0x90, 0x5a, 0x1b, 0xe8, 0x6d, 0x34, 0x43, 0xd6, 0x8e, 0xb1, 0xa5, 0x09, 0x72, 0xcf] ∧
      subLayer config 2 PAT =
        blk [0x86, 0x79, 0x3c, 0xaf, 0xd1, 0xe4, 0x0b, 0x52, 0x25, 0xb0, 0x4e, 0x1d, 0xfa, 0xc3, 0x97, 0x68] ∧
      subLayer config 4 PAT =
        blk [0x1f, 0x83, 0xc0, 0xb6, 0x25, 0x4a, 0x9e, 0x7d, 0xd7, 0xe9, 0xa4, 0x52, 0x6b, 0x0c, 0x38, 0xf1] ∧
      subLayer config 6 PAT =
        blk [0x72, 0xc5, 0x84, 0x6b, 0xe9, 0x1f, 0xd3, 0xa0, 0x0a, 0x3d, 0xf1, 0x9e, 0xb6, 0x48, 0x5c, 0x27] ∧
      invSubLayer config 6 PAT =
        blk [0xfa, 0x1d, 0x53, 0x60, 0x49, 0xe7, 0x2c, 0x8b, 0xb8, 0xc2, 0x7e, 0x94, 0x06, 0x35, 0xd1, 0xaf] := by
  decide +kernel

/-- 43_substitution.md R114 and 95_test_vectors.md 2.3. -/
theorem test_sub_bitslice : subBitslice config 0 PAT =
    blk [0xff, 0xff, 0xff, 0xff, 0x76, 0x54, 0x32, 0x10, 0xfe, 0xdc, 0xba, 0x98, 0x00, 0x00, 0x00, 0x00] := by decide +kernel

/-- 95_test_vectors.md 2.4. -/
theorem test_linear_mixing :
    lt SEQ16 = blk [0x6a, 0x80, 0xf7, 0x3d, 0x48, 0x9a, 0xec, 0x3e, 0x92, 0x4f, 0xc0, 0x9a, 0x2b, 0x26, 0x23, 0x2f] ∧
      invLt PAT = blk [0x2e, 0xa6, 0x3f, 0xb7, 0xb7, 0x69, 0xb7, 0x1e, 0x52, 0x8d, 0xb2, 0x83, 0x04, 0xb9, 0x9a, 0x57] := by
  decide +kernel

/-- The examples of 45_encrypt.md R131 and 46_decrypt.md R141. -/
theorem test_round :
    let rk := (Vector.replicate 33 (0 : Block)).set 0
      (blk [0x1f, 0x2a, 0x27, 0x74, 0xfc, 0x52, 0xd6, 0x56, 0x17, 0x84, 0x79, 0x7a, 0x4b, 0x7c, 0xf7, 0x0e])
    let T := blk [0x00, 0xca, 0x00, 0xca, 0x0f, 0xca, 0x0f, 0xca, 0xf0, 0xca, 0xf0, 0xca, 0xff, 0xca, 0xff, 0xca]
    let U := blk [0x6d, 0xd1, 0x75, 0x3e, 0x4f, 0x2e, 0x22, 0x74, 0x9b, 0x76, 0x98, 0xa8, 0xfb, 0x05, 0xa0, 0x6f]
    encRound config rk 0 T = U ∧ decRound config rk 0 U = T := by decide +kernel

/-! ## Single steps -/

/-- `CONSTRUCT128` of `KZ` (41_key_construction.md R92, 95_test_vectors.md P1): `KEY`, `RK[0]`, `RK[32]`, `KEY_VALID`, response. -/
theorem test_construct128 :
    onNext (fun t => (t.key, t.rk.get 0, t.rk.get 32, t.keyValid, t.respChan)) (step (fed (0x10 :: List.replicate 16 0))) =
      some (ofBytes 256 (List.replicate 16 0 ++ [0xf0]),
        blk [0xef, 0xaa, 0xa7, 0x44, 0xbe, 0xa1, 0x27, 0x79, 0x9a, 0x2b, 0xdc, 0x79, 0xd8, 0x4e, 0x4d, 0xe0],
        blk [0x3a, 0xc4, 0x8f, 0xf4, 0xcc, 0xb6, 0x85, 0xe5, 0xb9, 0x45, 0x64, 0x3a, 0x1e, 0x0a, 0x2e, 0x20], true, [0x00]) := by
  decide +kernel

/-- `CONSTRUCT192` of `K24` (95_test_vectors.md P4). -/
theorem test_construct192 :
    onNext (fun t => (t.rk.get 0, t.rk.get 32)) (exec (.construct192 0x17161514131211100f0e0d0c0b0a09080706050403020100) bare) =
      some (blk [0xb1, 0x0a, 0x09, 0x64, 0x01, 0x2e, 0x04, 0x88, 0xd1, 0x39, 0x99, 0x06, 0x58, 0x83, 0x6e, 0xcd],
        blk [0xf9, 0x4d, 0xb8, 0x81, 0x8f, 0xf6, 0xea, 0x24, 0x7a, 0x47, 0x67, 0xe3, 0x1e, 0xa5, 0x3a, 0xcf]) := by
  decide +kernel

/-- `CONSTRUCT256` of `K32` (95_test_vectors.md P4). -/
theorem test_construct256 :
    onNext (fun t => (t.rk.get 0, t.rk.get 32))
        (exec (.construct256 0x1f1e1d1c1b1a191817161514131211100f0e0d0c0b0a09080706050403020100) bare) =
      some (blk [0x7f, 0x5a, 0x57, 0x14, 0x96, 0xbd, 0xa8, 0x2c, 0xae, 0x61, 0xd3, 0x4b, 0xf2, 0xd9, 0xc9, 0xce],
        blk [0xc2, 0xb8, 0x57, 0x0e, 0x85, 0x9a, 0x63, 0x1c, 0x75, 0xfb, 0xbe, 0xc7, 0x13, 0x2a, 0x88, 0x2d]) := by
  decide +kernel

/-- `ENCRYPT` of the zero Block under `KZ` (45_encrypt.md R130). -/
theorem test_encrypt : onNext (·.respChan) (exec (.encrypt 0) keyed) = some (0x01 :: czBytes) := by decide +kernel

/-- `ENCRYPT` before any key (60_exceptions.md R153). -/
theorem test_encrypt_no_key : onNext (·.respChan) (exec (.encrypt 0) bare) = some [0x83] := by decide +kernel

/-- `DECRYPT` under `KZ` (46_decrypt.md R140). -/
theorem test_decrypt : onNext (·.respChan) (exec (.decrypt (blk czBytes)) keyed) = some (0x01 :: List.replicate 16 0) := by
  decide +kernel

/-- `DECRYPT` of a Block that no ENCRYPT produced (46_decrypt.md R140). -/
theorem test_decrypt_any : onNext (·.respChan) (exec (.decrypt 0) keyed) =
    some [0x01, 0x62, 0x24, 0xac, 0xd7, 0xdd, 0xdc, 0x7e, 0x7b, 0xaf, 0x63, 0xea, 0x34, 0x01, 0x3c, 0x3f, 0x89] := by
  decide +kernel

/-- The first word of each row of the opcode table runs as the first instruction after reset (log entry 5). -/
theorem test_fetch_words_run :
    [0x10, 0x18, 0x20, 0x40, 0x80].map (fun w => onNext (·.respChan) (step (State.reset.withFetchWord 8 w))) =
      [some [0x00], some [0x00], some [0x00], some [0x83], some [0x83]] := by decide +kernel

/-- The middle of 95_test_vectors.md P5: reset drops the partial ENCRYPT `40 00`, which is not answered, and the byte after it
begins a command. -/
theorem test_reset_drops_partial_command :
    observed [.byte 0x40, .byte 0x00, .reset, .byte 0xC0] = [0x82] ∧ observed [.byte 0x40, .byte 0x00] = [] := by
  decide +kernel

/-- R171: a response taken before reset is in the run's observable, one that still lay on the channel is not. -/
theorem test_reset_keeps_taken_responses :
    (runInputs [.byte 0xC0, .take, .byte 0x00, .reset, .byte 0xC0, .take] ⟨bare, []⟩).taken = [0x82, 0x82] ∧
      observed [.byte 0xC0, .byte 0x00, .reset, .byte 0xC0] = [0x82, 0x81, 0x82] := by decide +kernel

/-! ## Witnesses: for every obligation with hypotheses, values that meet them -/

/-- `bare` with a command in execution. -/
def running (q : Seq) (x : Operand) (T : Option Block) : State := { keyed with seq := q, operand := x, temp := T }

theorem bare_inv : Inv bare := ⟨fun h => by simp [bare] at h, by simp [PhaseOk, bare]⟩

theorem keyed_inv : Inv keyed := ⟨fun _ => rfl, by simp [PhaseOk, keyed, bare]⟩

theorem witness_DecodedBytesAreEncoding : decode [0x40, 1, 2, 3, 4, 5, 6, 7, 8, 9, 10, 11, 12, 13, 14, 15, 16, 0x80] =
    .command (.encrypt 0x100f0e0d0c0b0a090807060504030201) [0x80] := by decide +kernel

/-- The ends of the range of unsupported lengths, and one beside a supported length. -/
theorem witness_PayloadLengthByCommandByte : ∀ cmd ∈ [(0x00 : Byte), 0x0F, 0x11, 0x3F],
    cmd.toNat ≤ 0x3F ∧ cmd.toNat ∉ [16, 24, 32] ∧ (List.replicate cmd.toNat (0x40 : Byte)).length = cmd.toNat := by decide

/-- One command byte of each row of R66, at the ends of the rows that are ranges. -/
theorem witness_CommandByteMap :
    ∀ cmd ∈ [(0x10 : Byte), 0x18, 0x20, 0x40, 0x80, 0x00, 0x3F, 0x41, 0x7F, 0x81, 0xBF, 0xC0, 0xFF],
      (List.replicate (plen cmd) (0x55 : Byte)).length = plen cmd := by decide

theorem witness_OperandBytesInOrder : (15 : Nat) < 16 ∧ (23 : Nat) < 24 ∧ (31 : Nat) < 32 := by decide

/-- Each digit count, and the ends of the range of unsupported lengths. -/
theorem witness_AssemblerLines :
    (∀ n ∈ [32, 48, 64], (List.replicate n (0xA : Nibble)).length = n) ∧
      ∀ n ∈ [0, 63], n ≤ 63 ∧ n ∉ [16, 24, 32] ∧ (List.replicate (2 * n) (0xA : Nibble)).length = 2 * n := by decide

theorem witness_StepRunsDecodedCommand : Ready (fed (0x40 :: List.replicate 16 0 ++ [0xC0])) ∧
    decode (fed (0x40 :: List.replicate 16 0 ++ [0xC0])).cmdChan = .command (.encrypt 0) [0xC0] := by decide +kernel

/-- The last missing byte, and the empty channel. -/
theorem witness_IncompleteCommandWaits :
    (Ready (fed (0x80 :: List.replicate 15 0)) ∧ (List.replicate 15 (0 : Byte)).length < plen 0x80) ∧
      Ready bare ∧ bare.cmdChan = [] := by decide

theorem witness_LateBytesCompleteTheCommand :
    Ready (fed [0x40, 0, 0]) ∧ encode (.encrypt 0) = [0x40, 0, 0] ++ List.replicate 14 0 := by decide +kernel

theorem witness_LaterBytesDoNotMatter : (fed [0xC0]).resetLine = false ∧
    step (fed [0xC0]) = .next { fed [] with respChan := [0x82] } := ⟨rfl, rfl⟩

theorem witness_CommandAnsweredOnce : Ready (fed [0xC0]) ∧ decode (fed [0xC0]).cmdChan ≠ .empty ∧
    decode (fed [0xC0]).cmdChan ≠ .incomplete := by decide

/-- Lengths 0 and 63, the ends of the range. -/
theorem witness_InvalidKeyLengthRejected : ∀ cmd ∈ [(0x00 : Byte), 0x3F],
    Ready (fed (cmd :: List.replicate cmd.toNat 0x40 ++ [0x80])) ∧ cmd.extractLsb' 6 2 = 0 ∧
      (cmd.extractLsb' 0 6).toNat ∉ [16, 24, 32] ∧
      (List.replicate cmd.toNat (0x40 : Byte)).length = (cmd.extractLsb' 0 6).toNat := by decide

/-- Both ends of each of the three ranges. -/
theorem witness_IllegalCommandRejected : ∀ cmd ∈ [(0x41 : Byte), 0x7F, 0x81, 0xBF, 0xC0, 0xFF],
    Ready (fed [cmd, 0x80]) ∧ (0x41 ≤ cmd.toNat ∧ cmd.toNat ≤ 0x7F ∨ 0x81 ≤ cmd.toNat ∧ cmd.toNat ≤ 0xBF ∨
      0xC0 ≤ cmd.toNat ∧ cmd.toNat ≤ 0xFF) := by decide

/-- Each of the two commands without a key; and a keyed state that steps. -/
theorem witness_NoKeyRejected :
    (∀ cmd ∈ [(0x40 : Byte), 0x80], Ready (fed (cmd :: List.replicate 16 0)) ∧
      (fed (cmd :: List.replicate 16 0)).keyValid = false ∧ (List.replicate 16 (0 : Byte)).length = 16) ∧
      keyed.keyValid = true ∧ keyed.resetLine = false ∧
      step { keyed with cmdChan := [0xC0] } = .next { keyed with respChan := [0x82] } := by
  exact ⟨by decide, rfl, rfl, rfl⟩

/-- One command byte of each clause, with and without a key. -/
theorem witness_StatusByCommandByteAndKey :
    (∀ cmd ∈ [(0x10 : Byte), 0x18, 0x20, 0x40, 0x80, 0x00, 0x3F, 0x41, 0xFF],
      (List.replicate (plen cmd) (0 : Byte)).length = plen cmd ∧ Ready (fed (cmd :: List.replicate (plen cmd) 0))) ∧
      Ready keyed ∧ bare.keyValid = false ∧ keyed.keyValid = true := ⟨by decide, ⟨rfl, rfl⟩, rfl, rfl⟩

/-- One value for each of the four clauses. -/
theorem witness_KeyLengthEquivalence :
    leBytes 32 kz.toNat = leBytes 16 (0 : BitVec 128).toNat ++ [0xF0] ++ List.replicate 15 0 ∧
      leBytes 32 (0xF0#256 <<< 192).toNat = leBytes 24 (0 : BitVec 192).toNat ++ [0xF0] ++ List.replicate 7 0 ∧
      leBytes 24 (0xF0#192 <<< 128).toNat = leBytes 16 (0 : BitVec 128).toNat ++ [0xF0] ++ List.replicate 7 0 ∧
      leBytes 32 kz.toNat = leBytes 16 (0 : BitVec 128).toNat ++ [config.padMarker] ++ List.replicate 15 0 ∧
      leBytes 32 (0xF0#256 <<< 192).toNat = leBytes 24 (0 : BitVec 192).toNat ++ [config.padMarker] ++ List.replicate 7 0 := by
  decide +kernel

theorem witness_KeyLengthEquivalence_next :
    (∃ t, exec (.construct128 0) bare = .next t) ∧ ∃ u, exec (.construct192 (0xF0 <<< 128)) bare = .next u :=
  ⟨⟨_, exec_construct128_eq ..⟩, _, exec_construct192_eq ..⟩

theorem witness_ContextDependsOnMasterKeyOnly :
    (∀ p, Instr.construct128 0 ≠ .encrypt p) ∧ (∀ c, Instr.construct128 0 ≠ .decrypt c) ∧
      (∃ s', exec (.construct128 0) bare = .next s') ∧ ∃ t', exec (.construct128 0) keyed = .next t' :=
  ⟨by simp, by simp, ⟨_, exec_construct128_eq ..⟩, _, exec_construct128_eq ..⟩

/-- Each of the three commands. -/
theorem witness_ConstructFrame :
    ∀ i ∈ [Instr.construct128 0, .construct192 0, .construct256 0],
      (∀ p, i ≠ .encrypt p) ∧ (∀ c, i ≠ .decrypt c) ∧ ∃ t, exec i bare = .next t := by
  simp [exec_construct128_eq, exec_construct192_eq, exec_construct256_eq]

/-- The first and the last key word. -/
theorem witness_KeyWordsLittleEndian : ∀ k ∈ [0, 7], k < 8 ∧
    (leBytes 32 kz.toNat)[4 * k]? = some 0 ∧ (leBytes 32 kz.toNat)[4 * k + 1]? = some 0 ∧
    (leBytes 32 kz.toNat)[4 * k + 2]? = some 0 ∧ (leBytes 32 kz.toNat)[4 * k + 3]? = some 0 := by decide +kernel

theorem witness_PrekeyRecurrence : ∃ w : List Word, w = (List.range 8).map (keyWord kz) ++ prekeys kz ∧ (131 : Nat) < 132 :=
  ⟨_, rfl, by decide⟩

/-- The first and the last chunk, in each of the two modes. -/
theorem witness_RoundKeysFromChunks :
    (∀ i ∈ [(0 : Fin 33), 32], ∀ d < 4, ((prekeys kz)[4 * i.val + d]?).isSome = true) ∧
      config.ksSboxMode = .nibble ∧ ({ config with ksSboxMode := .bitslice } : Config).ksSboxMode = .bitslice := by
  decide +kernel

theorem witness_PermuteGathers : ∀ i j : Fin 128, config.ip.get i = config.ip.get j → i = j := config_admitted.ipPermutes

theorem witness_PermutationsInverse : config.Admitted := config_admitted

theorem witness_ScatterIsInversePermutation : config.Admitted := config_admitted

/-- The bit-sliced `Config` is admitted as well. -/
theorem witness_SubLayerInverse : config.Admitted ∧ ({ config with ksSboxMode := .bitslice } : Config).Admitted :=
  ⟨config_admitted, config_admitted.ipPermutes, config_admitted.fpInverts, config_admitted.boxesPermute, config_admitted.inverseBoxes⟩

theorem witness_SubLayerLanes : (31 : Nat) < 32 ∧ (15 : Nat) < 16 := by decide

theorem witness_InvSubLayerLanes : (31 : Nat) < 32 ∧ (15 : Nat) < 16 := by decide

theorem witness_BitslicePositions : (31 : Nat) < 32 ∧ ∀ k < 4, (6#4).getLsbD k = (wordOf PAT k).getLsbD 31 := by
  decide +kernel

theorem witness_EncRoundSteps : (7 : Fin 8).val = (31 : Fin 32).val % 8 ∧ (6 : Fin 8).val = (30 : Fin 32).val % 8 := by decide

theorem witness_DecRoundUndoesEncRound :
    config.Admitted ∧ (7 : Fin 8).val = (31 : Fin 32).val % 8 ∧ (6 : Fin 8).val = (30 : Fin 32).val % 8 :=
  ⟨config_admitted, by decide, by decide⟩

theorem witness_EncryptResult : keyed.keyValid = true ∧ bare.keyValid = false := ⟨rfl, rfl⟩

theorem witness_DecryptResult : keyed.keyValid = true ∧ bare.keyValid = false := ⟨rfl, rfl⟩

/-- Both commands, rejected and answered; the working values are absent before. -/
theorem witness_CipherFrame :
    (∀ i ∈ [Instr.encrypt 0, .decrypt 0], (∃ b, i = .encrypt b ∨ i = .decrypt b) ∧
        onNext (fun t => (t.temp, t.operand)) (exec i bare) = some (none, .none) ∧
        onNext (fun t => (t.temp, t.operand)) (exec i keyed) = some (none, .none)) ∧
      bare.temp = none ∧ bare.operand = .none := by
  refine ⟨?_, rfl, rfl⟩
  intro i hi
  simp only [List.mem_cons, List.not_mem_nil, or_false] at hi
  rcases hi with rfl | rfl
  · exact ⟨⟨0, .inl rfl⟩, by decide +kernel, by decide +kernel⟩
  · exact ⟨⟨0, .inr rfl⟩, by decide +kernel, by decide +kernel⟩

theorem witness_CipherAnswerDependsOnKeyAndBlock :
    bare.rk = ({ bare with key := 1 } : State).rk ∧ bare.keyValid = ({ bare with key := 1 } : State).keyValid ∧
      exec (.encrypt 0) bare = .next (raise .noKey bare) ∧
      exec (.encrypt 0) { bare with key := 1 } = .next (raise .noKey { bare with key := 1 }) := ⟨rfl, rfl, rfl, rfl⟩

/-- The first and the last round. -/
theorem witness_EncryptSequencer : keyed.resetLine = false ∧ keyed.keyValid = true ∧ (0 : Nat) < 32 ∧ (31 : Nat) < 32 :=
  ⟨rfl, rfl, by decide, by decide⟩

theorem witness_DecryptSequencer : keyed.resetLine = false ∧ keyed.keyValid = true ∧ (0 : Nat) < 32 ∧ (31 : Nat) < 32 :=
  ⟨rfl, rfl, by decide, by decide⟩

theorem witness_CipherRoundTrip : config.Admitted ∧ keyed.keyValid = true ∧
    ({ keyed with respChan := [0] } : State).keyValid = true ∧ ({ keyed with respChan := [0] } : State).rk = keyed.rk :=
  ⟨config_admitted, rfl, rfl, rfl⟩

/-- A reset of a keyed core; a CONSTRUCT's line; a CONSTRUCT command. -/
theorem witness_KeyValidChanges :
    (step (applyInput .reset keyed) = .next .reset ∧ (applyInput .reset keyed).keyValid = true ∧ State.reset.keyValid = false) ∧
      (let s : State := { bare with seq := .ks, operand := .key kz }
       step s = .next (completeConstruct kz s) ∧ s.keyValid = false ∧ (completeConstruct kz s).keyValid = true) ∧
      onNext (·.keyValid) (step (fed (0x10 :: List.replicate 16 0))) = some true :=
  ⟨⟨rfl, rfl, rfl⟩, ⟨rfl, rfl, rfl⟩, by decide +kernel⟩

/-- A CONSTRUCT changes `KEY`, the reset input being low. -/
theorem witness_OnlyConstructWritesKey :
    (fed (0x10 :: List.replicate 16 0)).resetLine = false ∧
      onNext (fun t => decide (t.key = bare.key)) (step (fed (0x10 :: List.replicate 16 0))) = some false := by decide +kernel

/-- An idle keyed core that steps, and one in the middle of an ENCRYPT. -/
theorem witness_StepKeepsInv :
    (Inv keyed ∧ ∃ t, step { keyed with cmdChan := [0xC0] } = .next t) ∧
      Inv (running (.encRound 31) .none (some PT)) ∧ ∃ t, step (running (.encRound 31) .none (some PT)) = .next t :=
  ⟨⟨keyed_inv, _, rfl⟩, ⟨fun _ => rfl, by simp [PhaseOk, running, keyed]⟩,
    _, (step_running _ rfl (by simp [running])).trans (advance_encRound _ 31 PT rfl rfl)⟩

/-- A channel that already holds a response of each length. -/
theorem witness_StepKeepsResponses :
    ResponsesOk (0x00 :: 0x01 :: List.replicate 16 7) ∧
      ∃ t, step { fed [0xC0] with respChan := 0x00 :: 0x01 :: List.replicate 16 7 } = .next t :=
  ⟨⟨[⟨0x00, []⟩, ⟨0x01, List.replicate 16 7⟩], by decide, by decide⟩, _, rfl⟩

/-- A core that is quiescent, one that waits, and one that steps. -/
theorem witness_CoreStopsOnlyToWait :
    (Inv bare ∧ Quiescent bare) ∧ (Inv (fed [0x40]) ∧ Waiting (fed [0x40])) ∧
      Inv (fed [0xC0]) ∧ ¬ Quiescent (fed [0xC0]) ∧ ¬ Waiting (fed [0xC0]) :=
  ⟨⟨bare_inv, by decide⟩, ⟨⟨fun h => by simp [fed, bare] at h, by simp [PhaseOk, fed, bare]⟩, by decide⟩,
    ⟨fun h => by simp [fed, bare] at h, by simp [PhaseOk, fed, bare]⟩, by decide, by decide⟩

theorem witness_CoreSettles : Inv (running .decIp (.block PT) none) :=
  ⟨fun _ => rfl, by simp [PhaseOk, running, keyed, bare]⟩

theorem witness_ViewsAgree : (127 : Nat) < 128 := by decide

end Sys2Proof.Tests
end

/-! # The state (10_state.md)

What the 34 lines of a cipher command come to, what a command can do, which steps write the key registers, and the invariant. -/

namespace Sys2Proof.Machine

/-! ## The lines of a cipher command, run in a row (R134, R144) -/

/-- The phase an ENCRYPT is in after its first `n` rounds. -/
def encPhase (n : Nat) : Seq := if h : n < 32 then .encRound ⟨n, h⟩ else .encFinal

/-- The phase a DECRYPT is in after its first `n` rounds, which are 31, 30, .. -/
def decPhase (n : Nat) : Seq := if n < 32 then .decRound ⟨31 - n, by omega⟩ else .decFinal

theorem encPhase_of_lt {n : Nat} (h : n < 32) : encPhase n = .encRound ⟨n, h⟩ := dif_pos h

theorem decPhase_of_lt {n : Nat} (h : n < 32) : decPhase n = .decRound ⟨31 - n, by omega⟩ := if_pos h

theorem seqAfterEnc_eq (r : Fin 32) : seqAfterEnc r = encPhase (r.val + 1) := by
  by_cases hr : r.val < 31
  · rw [seqAfterEnc, dif_pos hr, encPhase_of_lt (by omega)]
  · rw [seqAfterEnc, dif_neg hr, encPhase, dif_neg (by omega)]

theorem seqAfterDec_eq {n : Nat} (h : n < 32) : seqAfterDec ⟨31 - n, by omega⟩ = decPhase (n + 1) := by
  simp only [seqAfterDec]
  by_cases hn : n < 31
  · rw [if_pos (by omega), decPhase_of_lt (by omega)]
    rfl
  · rw [if_neg (by omega), decPhase, if_neg (by omega)]

/-- The first line of an ENCRYPT and its first `n` rounds. -/
theorem runSeq_encRounds (p : Block) (s : State) (n : Nat) (h : n ≤ 32) :
    runSeq (n + 1) (accept .encIp (.block p) s) =
      .next { s with temp := some (encTemp config s.rk p n), seq := encPhase n, operand := .none } := by
  induction n with
  | zero => exact runSeq_of_advance 0 (advance_encIp _ p rfl rfl)
  | succ n ih =>
    rw [runSeq_succ _ (ih (by omega)), advance_encRound _ ⟨n, h⟩ _ (encPhase_of_lt h) rfl, seqAfterEnc_eq,
      encTemp_succ config s.rk p n h]

/-- The first line of a DECRYPT and its first `n` rounds. -/
theorem runSeq_decRounds (c : Block) (s : State) (n : Nat) (h : n ≤ 32) :
    runSeq (n + 1) (accept .decIp (.block c) s) =
      .next { s with temp := some (decTemp config s.rk c n), seq := decPhase n, operand := .none } := by
  induction n with
  | zero => exact runSeq_of_advance 0 (advance_decIp _ c rfl rfl)
  | succ n ih =>
    rw [runSeq_succ _ (ih (by omega)), advance_decRound _ ⟨31 - n, by omega⟩ _ (decPhase_of_lt h) rfl, seqAfterDec_eq h,
      decTemp_succ config s.rk c n h]

/-- ENCRYPT with a key loaded (R130): its 34 lines come to one response and an empty operand buffer. -/
theorem exec_encrypt_eq (p : Block) (s : State) (h : s.keyValid = true) :
    exec (.encrypt p) s = .next (finishCipher (encryptBlock config s.rk p) { s with operand := .none }) := by
  rw [exec, execEncrypt, withKeyValid_true s _ h, runSeq_succ _ (runSeq_encRounds p s 32 le_rfl),
    advance_encFinal _ (encTemp config s.rk p 32) rfl rfl]
  rfl

/-- DECRYPT with a key loaded (R140): its 34 lines come to one response and an empty operand buffer. -/
theorem exec_decrypt_eq (c : Block) (s : State) (h : s.keyValid = true) :
    exec (.decrypt c) s = .next (finishCipher (decryptBlock config s.rk c) { s with operand := .none }) := by
  rw [exec, execDecrypt, withKeyValid_true s _ h, runSeq_succ _ (runSeq_decRounds c s 32 le_rfl),
    advance_decFinal _ (decTemp config s.rk c 32) rfl rfl]
  rfl

/-! ## What a command can do -/

/-- A command that is no cipher command completes a CONSTRUCT of a Key that does not depend on the state (R90 to R93). -/
theorem exec_construct {i : Instr} (hp : ∀ p, i ≠ .encrypt p) (hc : ∀ c, i ≠ .decrypt c) :
    ∃ k32, ∀ s, exec i s = .next (completeConstruct k32 s) := by
  cases i with
  | construct128 k => exact ⟨_, exec_construct128_eq k⟩
  | construct192 k => exact ⟨_, exec_construct192_eq k⟩
  | construct256 k => exact ⟨_, exec_construct256_eq k⟩
  | encrypt p => exact absurd rfl (hp p)
  | decrypt c => exact absurd rfl (hc c)

/-- A cipher command raises NoKey (R153) or, with a key loaded, answers one Block (R133, R143). -/
theorem exec_cipher {i : Instr} (hi : ∃ b, i = .encrypt b ∨ i = .decrypt b) (s : State) :
    (s.keyValid = false ∧ exec i s = .next (raise .noKey s)) ∨
      (s.keyValid = true ∧ ∃ out, exec i s = .next (finishCipher out { s with operand := .none })) := by
  obtain ⟨b, rfl | rfl⟩ := hi <;> obtain hk | hk := Bool.eq_false_or_eq_true s.keyValid
  · exact .inr ⟨hk, _, exec_encrypt_eq b s hk⟩
  · exact .inl ⟨hk, exec_encrypt_noKey b s hk⟩
  · exact .inr ⟨hk, _, exec_decrypt_eq b s hk⟩
  · exact .inl ⟨hk, exec_decrypt_noKey b s hk⟩

/-- Everything a command can do, and which commands do it. -/
theorem exec_cases {i : Instr} {s t : State} (h : exec i s = .next t) :
    ((∀ p, i ≠ .encrypt p) ∧ (∀ c, i ≠ .decrypt c) ∧ ∃ k32, t = completeConstruct k32 s) ∨
    ((∃ b, i = .encrypt b ∨ i = .decrypt b) ∧
      ((s.keyValid = false ∧ t = raise .noKey s) ∨
        (s.keyValid = true ∧ ∃ out, t = finishCipher out { s with operand := .none }))) := by
  by_cases hi : ∃ b, i = .encrypt b ∨ i = .decrypt b
  · obtain ⟨hk, he⟩ | ⟨hk, out, he⟩ := exec_cipher hi s <;> cases he.symm.trans h
    · exact .inr ⟨hi, .inl ⟨hk, rfl⟩⟩
    · exact .inr ⟨hi, .inr ⟨hk, out, rfl⟩⟩
  · have hp : ∀ p, i ≠ .encrypt p := fun p hp => hi ⟨p, .inl hp⟩
    have hc : ∀ c, i ≠ .decrypt c := fun c hc => hi ⟨c, .inr hc⟩
    obtain ⟨k32, he⟩ := exec_construct hp hc
    cases (he s).symm.trans h
    exact .inl ⟨hp, hc, k32, rfl⟩

/-! ## Which steps write the key registers (R20, R21, R27, R93) -/

/-- The step of `s` completes a CONSTRUCT: the line of phase KS, or a whole command of the idle core. -/
def CompletesConstruct (s : State) : Prop :=
  s.seq = .ks ∨ ∃ i rest, s.seq = .idle ∧ decode s.cmdChan = .command i rest ∧
    (∀ p, i ≠ .encrypt p) ∧ ∀ c, i ≠ .decrypt c

/-- `KEY`, `RK` and `KEY_VALID` are the same in both states. -/
structure SameKeyRegs (s t : State) : Prop where
  key : t.key = s.key
  rk : t.rk = s.rk
  keyValid : t.keyValid = s.keyValid

/-- A line writes the key registers in phase KS only, and then sets `KEY_VALID`. -/
theorem advance_keyRegs {s t : State} (h : advance s = .next t) :
    (s.seq = .ks ∧ t.keyValid = true) ∨ SameKeyRegs s t := by
  obtain ⟨-, rfl⟩ | ⟨_, hs, -, rfl⟩ | ⟨_, -, -, rfl⟩ | ⟨_, _, -, -, rfl⟩ | ⟨_, -, -, rfl⟩ | ⟨_, -, -, rfl⟩ |
    ⟨_, _, -, -, rfl⟩ | ⟨_, -, -, rfl⟩ := advance_cases h
  case inr.inl => exact .inl ⟨hs, rfl⟩
  all_goals exact .inr ⟨rfl, rfl, rfl⟩

/-- A step other than reset completes a CONSTRUCT, which sets `KEY_VALID`, or leaves the key registers as they are. -/
theorem step_keyRegs {s t : State} (h : step s = .next t) (hr : s.resetLine = false) :
    (CompletesConstruct s ∧ t.keyValid = true) ∨ SameKeyRegs s t := by
  obtain ⟨hr', -⟩ | ⟨-, hs, i, rest, hd, he⟩ | ⟨-, -, e, rest, -, rfl⟩ | ⟨-, -, ha⟩ := step_cases h
  · simp [hr] at hr'
  · obtain ⟨hp, hc, k32, rfl⟩ | ⟨-, ⟨-, rfl⟩ | ⟨-, out, rfl⟩⟩ := exec_cases he
    · exact .inl ⟨.inr ⟨i, rest, hs, hd, hp, hc⟩, rfl⟩
    · exact .inr ⟨rfl, rfl, rfl⟩
    · exact .inr ⟨rfl, rfl, rfl⟩
  · exact .inr ⟨rfl, rfl, rfl⟩
  · exact (advance_keyRegs ha).imp_left fun ⟨hs, hk⟩ => ⟨.inl hs, hk⟩

end Sys2Proof.Machine

namespace Sys2Proof.Safety

open Sys2Proof.Machine

/-! ## The invariant, phase by phase -/

/-- The phases in which `TEMP` holds a value (R22): the rounds and the final lines of a cipher command. -/
def holdsTemp : Seq → Bool
  | .encRound _ | .encFinal | .decRound _ | .decFinal => true
  | .idle | .ks | .encIp | .decIp => false

theorem holdsTemp_seqAfterEnc (r : Fin 32) : holdsTemp (seqAfterEnc r) = true := by
  rw [seqAfterEnc]
  split <;> rfl

theorem holdsTemp_seqAfterDec (r : Fin 32) : holdsTemp (seqAfterDec r) = true := by
  rw [seqAfterDec]
  split <;> rfl

theorem phaseOk_of_idle {s : State} (hs : s.seq = .idle) : PhaseOk s ↔ s.temp = none ∧ s.operand = .none := by
  rw [PhaseOk, hs]

theorem phaseOk_of_ks {s : State} (hs : s.seq = .ks) : PhaseOk s ↔ s.temp = none ∧ ∃ k32, s.operand = .key k32 := by
  rw [PhaseOk, hs]

theorem phaseOk_of_ip {s : State} (hs : s.seq = .encIp ∨ s.seq = .decIp) :
    PhaseOk s ↔ s.keyValid = true ∧ s.temp = none ∧ ∃ b, s.operand = .block b := by
  obtain hs | hs := hs <;> rw [PhaseOk, hs]

theorem phaseOk_of_holdsTemp {s : State} (hs : holdsTemp s.seq = true) :
    PhaseOk s ↔ s.keyValid = true ∧ s.operand = .none ∧ ∃ T, s.temp = some T := by
  rw [PhaseOk]
  cases hq : s.seq <;> simp [hq, holdsTemp] at hs ⊢

/-- While the key registers stay as they are, only the phase is to be checked. -/
theorem Inv.of_sameKeyRegs {s t : State} (h : Inv s) (hst : SameKeyRegs s t) (ht : PhaseOk t) : Inv t where
  roundKeys hk := by
    rw [hst.rk, hst.key]
    exact h.roundKeys (hst.keyValid.symm.trans hk)
  phase := ht

/-- Completing a CONSTRUCT establishes the invariant: `RK` and `KEY` are written together (R93). -/
theorem inv_completeConstruct (k32 : Key) {s : State} (ht : s.temp = none) : Inv (completeConstruct k32 s) where
  roundKeys _ := rfl
  phase := (phaseOk_of_idle rfl).2 ⟨ht, rfl⟩

/-- A rejected command keeps the invariant of the idle core. -/
theorem Inv.raise {s : State} (h : Inv s) (e : CmdError) (ht : s.temp = none) (ho : s.operand = .none) :
    Inv (raise e s) :=
  h.of_sameKeyRegs ⟨rfl, rfl, rfl⟩ ((phaseOk_of_idle rfl).2 ⟨ht, ho⟩)

/-- The end of a cipher command keeps the invariant: `TEMP` has no value again. -/
theorem Inv.finishCipher {s : State} (h : Inv s) (out : Block) (ho : s.operand = .none) : Inv (finishCipher out s) :=
  h.of_sameKeyRegs ⟨rfl, rfl, rfl⟩ ((phaseOk_of_idle rfl).2 ⟨rfl, ho⟩)

/-- A line that gives `TEMP` a value and goes on to a round or the final lines keeps the invariant. -/
theorem Inv.intoRound {s : State} {x : Operand} {q : Seq} (h : Inv s) (T : Block) (hk : s.keyValid = true)
    (hx : x = .none) (hq : holdsTemp q = true) : Inv { s with temp := some T, operand := x, seq := q } :=
  h.of_sameKeyRegs ⟨rfl, rfl, rfl⟩ ((phaseOk_of_holdsTemp hq).2 ⟨hk, hx, T, rfl⟩)

/-- A line of the sequencer keeps the invariant. -/
theorem Inv.advance {s t : State} (h : Inv s) (ha : advance s = .next t) : Inv t := by
  have rounds (hs : holdsTemp s.seq = true) := (phaseOk_of_holdsTemp hs).1 h.phase
  obtain ⟨-, rfl⟩ | ⟨k32, hs, -, rfl⟩ | ⟨p, hs, -, rfl⟩ | ⟨r, T, hs, -, rfl⟩ | ⟨T, hs, -, rfl⟩ | ⟨c, hs, -, rfl⟩ |
    ⟨r, T, hs, -, rfl⟩ | ⟨T, hs, -, rfl⟩ := advance_cases ha
  · exact h
  · obtain ⟨ht, -⟩ := (phaseOk_of_ks hs).1 h.phase
    exact inv_completeConstruct k32 ht
  · obtain ⟨hk, -⟩ := (phaseOk_of_ip (.inl hs)).1 h.phase
    exact h.intoRound _ hk rfl rfl
  · obtain ⟨hk, ho, -⟩ := rounds (by rw [hs]; rfl)
    exact h.intoRound _ hk ho (holdsTemp_seqAfterEnc r)
  · obtain ⟨-, ho, -⟩ := rounds (by rw [hs]; rfl)
    exact h.finishCipher _ ho
  · obtain ⟨hk, -⟩ := (phaseOk_of_ip (.inr hs)).1 h.phase
    exact h.intoRound _ hk rfl rfl
  · obtain ⟨hk, ho, -⟩ := rounds (by rw [hs]; rfl)
    exact h.intoRound _ hk ho (holdsTemp_seqAfterDec r)
  · obtain ⟨-, ho, -⟩ := rounds (by rw [hs]; rfl)
    exact h.finishCipher _ ho

/-- A command of the idle core keeps the invariant. -/
theorem Inv.exec {i : Instr} {s t : State} (h : Inv s) (hs : s.seq = .idle) (he : exec i s = .next t) : Inv t := by
  obtain ⟨ht, ho⟩ := (phaseOk_of_idle hs).1 h.phase
  obtain ⟨-, -, k32, rfl⟩ | ⟨-, ⟨-, rfl⟩ | ⟨-, out, rfl⟩⟩ := exec_cases he
  · exact inv_completeConstruct k32 ht
  · exact h.raise .noKey ht ho
  · have hb : Inv { s with operand := .none } := by rwa [← ho]
    exact hb.finishCipher out rfl

/-- The invariant does not speak of the command channel. -/
theorem Inv.withCmdChan {s : State} (h : Inv s) (bs : List Byte) : Inv { s with cmdChan := bs } := ⟨h.roundKeys, h.phase⟩

/-! ## The obligations of 10_state.md -/

/-- Settles O55. -/
theorem invAtReset : Obligations.InvAtReset where
  roundKeys hk := absurd hk (by decide)
  phase := (phaseOk_of_idle rfl).2 ⟨rfl, rfl⟩

/-- Settles O56: by the case of the step, each of which keeps the invariant by a lemma of its own. -/
theorem stepKeepsInv : Obligations.StepKeepsInv := by
  intro s t h hst
  obtain ⟨-, rfl⟩ | ⟨-, hs, i, rest, -, he⟩ | ⟨-, hs, e, rest, -, rfl⟩ | ⟨-, -, ha⟩ := step_cases hst
  · exact invAtReset
  · exact (h.withCmdChan rest).exec hs he
  · obtain ⟨ht, ho⟩ := (phaseOk_of_idle hs).1 h.phase
    exact (h.withCmdChan rest).raise e ht ho
  · exact h.advance ha

/-- Settles O51: each value is the one `State.reset` is written with. -/
theorem resetValues : Obligations.ResetValues := ⟨rfl, rfl, rfl, rfl, rfl⟩

/-- Settles O24: the frame of `CompleteConstruct`, which all three commands come to. -/
theorem constructFrame : Obligations.ConstructFrame := by
  intro i s t hp hc he
  obtain ⟨k32, hk⟩ := exec_construct hp hc
  cases (hk s).symm.trans he
  exact ⟨rfl, rfl, rfl, rfl, rfl, rfl⟩

/-- Settles O46: a cipher command comes to NoKey or to the end of its 34 lines, and both only answer. -/
theorem cipherFrame : Obligations.CipherFrame := by
  intro i s t hi he
  obtain ⟨-, h⟩ | ⟨-, out, h⟩ := exec_cipher hi s <;> cases h.symm.trans he
  · exact ⟨rfl, rfl, rfl, rfl, rfl, rfl, id, id, _, rfl⟩
  · exact ⟨rfl, rfl, rfl, rfl, rfl, rfl, fun _ => rfl, fun _ => rfl, _, rfl⟩

/-- Settles O53: only reset clears `KEY_VALID`, for a step without reset leaves it or sets it by a CONSTRUCT. -/
theorem keyValidChanges : Obligations.KeyValidChanges := by
  intro s t hst
  cases hr : s.resetLine with
  | true =>
    cases (step_reset s hr).symm.trans hst
    exact ⟨fun _ _ => rfl, fun _ ht => absurd ht (by decide)⟩
  | false =>
    obtain ⟨hc, ht⟩ | same := step_keyRegs hst hr
    · exact ⟨fun _ hf => by simp [ht] at hf, fun _ _ => ⟨rfl, hc⟩⟩
    · rw [same.keyValid]
      exact ⟨fun hs hf => by simp [hs] at hf, fun hs ht => by simp [hs] at ht⟩

/-- Settles O54: a step without reset that completes no CONSTRUCT leaves both registers. -/
theorem onlyConstructWritesKey : Obligations.OnlyConstructWritesKey := by
  intro s t hst hr hne
  obtain ⟨hc, -⟩ | same := step_keyRegs hst hr
  · exact hc
  · exact absurd hne (by simp [same.key, same.rk])

end Sys2Proof.Safety

/-! # The channels and the views of a Block (20_memory.md)

What a command, a line and a step do with bytes that stand behind them on the command channel, and what the answer of a cipher
command depends on. -/

namespace Sys2Proof

/-! ## The decoder read backwards: which bytes give a command, and which a rejection (R66, R67, R69) -/

theorem decode_eq_command_iff {bs rest : List Byte} {i : Instr} :
    decode bs = .command i rest ↔
      ∃ cmd payload, bs = cmd :: (payload ++ rest) ∧ payload.length = plen cmd ∧ interpret cmd payload = .ok i := by
  constructor
  · intro h
    cases bs with
    | nil => simp [decode] at h
    | cons cmd bs =>
      obtain ⟨-, hd⟩ | ⟨payload, r, rfl, hlen, ⟨j, hi, hd⟩ | ⟨e, -, hd⟩⟩ := decode_cons_cases cmd bs <;>
        cases hd.symm.trans h
      exact ⟨cmd, payload, rfl, hlen, hi⟩
  · rintro ⟨cmd, payload, rfl, hlen, hi⟩
    rw [decode_whole cmd payload rest hlen, hi]

theorem decode_eq_rejected_iff {bs rest : List Byte} {e : CmdError} :
    decode bs = .rejected e rest ↔
      ∃ cmd payload, bs = cmd :: (payload ++ rest) ∧ payload.length = plen cmd ∧ interpret cmd payload = .error e := by
  constructor
  · intro h
    cases bs with
    | nil => simp [decode] at h
    | cons cmd bs =>
      obtain ⟨-, hd⟩ | ⟨payload, r, rfl, hlen, ⟨i, -, hd⟩ | ⟨e', he, hd⟩⟩ := decode_cons_cases cmd bs <;>
        cases hd.symm.trans h
      exact ⟨cmd, payload, rfl, hlen, he⟩
  · rintro ⟨cmd, payload, rfl, hlen, he⟩
    rw [decode_whole cmd payload rest hlen, he]

/-- Bytes behind a whole command are left behind it. -/
theorem decode_append_of_command {bs rest : List Byte} {i : Instr} (h : decode bs = .command i rest) (more : List Byte) :
    decode (bs ++ more) = .command i (rest ++ more) := by
  obtain ⟨cmd, payload, rfl, hlen, hi⟩ := decode_eq_command_iff.1 h
  exact decode_eq_command_iff.2 ⟨cmd, payload, by simp, hlen, hi⟩

/-- Bytes behind a rejected command are left behind it. -/
theorem decode_append_of_rejected {bs rest : List Byte} {e : CmdError} (h : decode bs = .rejected e rest)
    (more : List Byte) : decode (bs ++ more) = .rejected e (rest ++ more) := by
  obtain ⟨cmd, payload, rfl, hlen, he⟩ := decode_eq_rejected_iff.1 h
  exact decode_eq_rejected_iff.2 ⟨cmd, payload, by simp, hlen, he⟩

end Sys2Proof

namespace Sys2Proof.Machine

open Safety

/-! ## What the answer of a cipher command depends on (R133, R143, R153) -/

/-- With a key loaded one function of `RK` gives a cipher command's answer in every state; without one it is NoKey. -/
theorem exec_cipher_answer {i : Instr} (hi : ∃ b, i = .encrypt b ∨ i = .decrypt b) :
    ∃ answer : Vector Block 33 → Block,
      (∀ s, s.keyValid = true → exec i s = .next (finishCipher (answer s.rk) { s with operand := .none })) ∧
        ∀ s, s.keyValid = false → exec i s = .next (raise .noKey s) := by
  obtain ⟨b, rfl | rfl⟩ := hi
  · exact ⟨fun rk => encryptBlock config rk b, exec_encrypt_eq b, exec_encrypt_noKey b⟩
  · exact ⟨fun rk => decryptBlock config rk b, exec_decrypt_eq b, exec_decrypt_noKey b⟩

/-! ## Nothing that runs looks at the command channel (R51, R52) -/

/-- A command does the same whatever stands on the command channel, and leaves it there. -/
theorem exec_withCmdChan {i : Instr} {s t : State} (h : exec i s = .next t) (bs : List Byte) :
    exec i { s with cmdChan := bs } = .next { t with cmdChan := bs } := by
  by_cases hi : ∃ b, i = .encrypt b ∨ i = .decrypt b
  · obtain ⟨answer, hkey, hno⟩ := exec_cipher_answer hi
    obtain hk | hk := Bool.eq_false_or_eq_true s.keyValid
    · cases (hkey s hk).symm.trans h
      exact hkey { s with cmdChan := bs } hk
    · cases (hno s hk).symm.trans h
      exact hno { s with cmdChan := bs } hk
  · obtain ⟨k32, he⟩ := exec_construct (fun p hp => hi ⟨p, .inl hp⟩) (fun c hc => hi ⟨c, .inr hc⟩)
    cases (he s).symm.trans h
    exact he _

theorem exec_cmdChan {i : Instr} {s t : State} (h : exec i s = .next t) : t.cmdChan = s.cmdChan := by
  obtain ⟨-, -, k32, rfl⟩ | ⟨-, ⟨-, rfl⟩ | ⟨-, out, rfl⟩⟩ := exec_cases h <;> rfl

theorem advance_idle (s : State) (hs : s.seq = .idle) : advance s = .next s := by
  simp [advance, hs]

/-- A line does the same whatever stands on the command channel, and leaves it there. -/
theorem advance_withCmdChan {s t : State} (h : advance s = .next t) (bs : List Byte) :
    advance { s with cmdChan := bs } = .next { t with cmdChan := bs } := by
  obtain ⟨hs, rfl⟩ | ⟨k32, hs, ho, rfl⟩ | ⟨p, hs, ho, rfl⟩ | ⟨r, T, hs, ht, rfl⟩ | ⟨T, hs, ht, rfl⟩ | ⟨c, hs, ho, rfl⟩ |
    ⟨r, T, hs, ht, rfl⟩ | ⟨T, hs, ht, rfl⟩ := advance_cases h
  · exact advance_idle _ hs
  · exact advance_ks _ k32 hs ho
  · exact advance_encIp _ p hs ho
  · exact advance_encRound _ r T hs ht
  · exact advance_encFinal _ T hs ht
  · exact advance_decIp _ c hs ho
  · exact advance_decRound _ r T hs ht
  · exact advance_decFinal _ T hs ht

/-! ## The step of the idle core -/

/-- Settles O10: the idle core decodes its channel and runs what it finds. -/
theorem stepRunsDecodedCommand : Obligations.StepRunsDecodedCommand := by
  rintro s i rest ⟨hr, hs⟩ hd
  rw [step_idle s hr hs, runCommand, hd]

/-- The idle core rejects the command its decoder rejects (R151, R152). -/
theorem step_of_rejected {s : State} {e : CmdError} {rest : List Byte} (h : Ready s)
    (hd : decode s.cmdChan = .rejected e rest) : step s = .next (raise e { s with cmdChan := rest }) := by
  obtain ⟨hr, hs⟩ := h
  rw [step_idle s hr hs, runCommand, hd]

/-! ## The obligations of 20_memory.md -/

/-- Settles O13: the decoder leaves the later bytes behind what it takes, and neither a command nor a line looks at them. -/
theorem laterBytesDoNotMatter : Obligations.LaterBytesDoNotMatter := by
  intro s t more hr hst
  obtain ⟨hr', -⟩ | ⟨-, hs, i, rest, hd, he⟩ | ⟨-, hs, e, rest, hd, rfl⟩ | ⟨-, hs, ha⟩ := step_cases hst
  · simp [hr] at hr'
  · have hrun := stepRunsDecodedCommand { s with cmdChan := s.cmdChan ++ more } i (rest ++ more) ⟨hr, hs⟩
      (decode_append_of_command hd more)
    rw [hrun, exec_cmdChan he]
    exact exec_withCmdChan he (rest ++ more)
  · exact step_of_rejected ⟨hr, hs⟩ (decode_append_of_rejected hd more)
  · rw [step_running { s with cmdChan := s.cmdChan ++ more } hr hs, (advance_frame ha).1]
    exact advance_withCmdChan ha (s.cmdChan ++ more)

/-- Settles O23: a CONSTRUCT completes with the same Key in every state. -/
theorem contextDependsOnMasterKeyOnly : Obligations.ContextDependsOnMasterKeyOnly := by
  intro i s t s' t' hp hc hs ht
  obtain ⟨k32, he⟩ := exec_construct hp hc
  cases (he s).symm.trans hs
  cases (he t).symm.trans ht
  exact ⟨rfl, rfl, rfl, rfl⟩

/-- Settles O47: both states answer NoKey, or both answer the Block that one function makes of the one `RK`. -/
theorem cipherAnswerDependsOnKeyAndBlock : Obligations.CipherAnswerDependsOnKeyAndBlock := by
  intro i s t s' t' hi hrk hk hs ht
  obtain ⟨answer, hkey, hno⟩ := exec_cipher_answer hi
  cases hkt : t.keyValid with
  | true =>
    cases (hkey s (hk.trans hkt)).symm.trans hs
    cases (hkey t hkt).symm.trans ht
    rw [hrk]
    exact ⟨stOkData :: blockBytes (answer t.rk), rfl, rfl⟩
  | false =>
    cases (hno s (hk.trans hkt)).symm.trans hs
    cases (hno t hkt).symm.trans ht
    exact ⟨[errorStatus .noKey], rfl, rfl⟩

/-- The sixteen bytes of a Block have its integer (R8). -/
theorem leNat_blockBytes (B : Block) : leNat (blockBytes B) = B.toNat := by
  rw [blockBytes, leNat_leBytes]
  exact Nat.mod_eq_of_lt B.isLt

/-- Settles O60: bit `i mod w` of the `w`-bit piece `i div w` is Block bit `w * (i div w) + i mod w`, which is bit `i`. -/
theorem viewsAgree : Obligations.ViewsAgree := by
  intro B
  refine ⟨fun i _ => ⟨?_, ?_, ?_⟩, blockOf_wordOf B, (leNat_blockBytes B).symm, fun x0 x1 x2 x3 => ⟨?_, ?_, ?_, ?_⟩⟩
  · rw [bit_byteOf _ _ _ (Nat.mod_lt _ (by decide)), Nat.div_add_mod]
  · rw [bit_nibOf _ _ _ (Nat.mod_lt _ (by decide)), Nat.div_add_mod]
  · rw [bit_wordOf _ _ _ (Nat.mod_lt _ (by decide)), Nat.div_add_mod]
  · exact wordOf_blockOf_zero x0 x1 x2 x3
  · exact wordOf_blockOf_one x0 x1 x2 x3
  · exact wordOf_blockOf_two x0 x1 x2 x3
  · exact wordOf_blockOf_three x0 x1 x2 x3

end Sys2Proof.Machine

/-! # The encoding (30_encoding.md)

The command byte and its payload, the decoder on a whole command, how a stream of bytes falls into commands, and which response
the core answers a command with. -/

namespace Sys2Proof

open Machine

/-! ## The command byte: its two fields, its payload length and its meaning (R61, R62, R66) -/

theorem opField_toNat (cmd : Byte) : (opField cmd).toNat = cmd.toNat / 64 := by
  have := cmd.isLt
  simp only [opField, BitVec.extractLsb'_toNat, Nat.shiftRight_eq_div_pow]
  omega

theorem klenField_toNat (cmd : Byte) : (klenField cmd).toNat = cmd.toNat % 64 := by
  simp [klenField, BitVec.extractLsb'_toNat]

theorem opField_eq_iff (cmd : Byte) (op : BitVec 2) : opField cmd = op ↔ cmd.toNat / 64 = op.toNat := by
  rw [← BitVec.toNat_inj, opField_toNat]

theorem klenField_eq_iff (cmd : Byte) (klen : BitVec 6) : klenField cmd = klen ↔ cmd.toNat % 64 = klen.toNat := by
  rw [← BitVec.toNat_inj, klenField_toNat]

theorem opField_eq_zero_iff (cmd : Byte) : opField cmd = 0 ↔ cmd.toNat ≤ 0x3F := by
  rw [opField_eq_iff]
  change cmd.toNat / 64 = 0 ↔ _
  omega

/-- A byte above the CONSTRUCTs with `klen = 0` and an `op` other than 3 is ENCRYPT or DECRYPT. -/
theorem fields_of_reserved {cmd : Byte} (h : 0x3F < cmd.toNat) (he : cmd ≠ 0x40) (hd : cmd ≠ 0x80) :
    opField cmd = 3 ∨ klenField cmd ≠ 0 := by
  have := cmd.isLt
  have he : cmd.toNat ≠ 0x40 := mt (BitVec.eq_of_toNat_eq (y := 0x40)) he
  have hd : cmd.toNat ≠ 0x80 := mt (BitVec.eq_of_toNat_eq (y := 0x80)) hd
  have hop : opField cmd = 3 ↔ cmd.toNat / 64 = 3 := opField_eq_iff cmd 3
  have hklen : klenField cmd = 0 ↔ cmd.toNat % 64 = 0 := klenField_eq_iff cmd 0
  rw [hop, ne_eq, hklen]
  omega

/-- A CONSTRUCT is followed by `klen` bytes. -/
theorem plen_of_le {cmd : Byte} (h : cmd.toNat ≤ 0x3F) : plen cmd = cmd.toNat := by
  rw [plen, if_pos ((opField_eq_zero_iff cmd).2 h), klenField_toNat]
  omega

/-- A reserved byte stands alone. -/
theorem plen_of_reserved {cmd : Byte} (h : 0x3F < cmd.toNat) (he : cmd ≠ 0x40) (hd : cmd ≠ 0x80) : plen cmd = 0 := by
  have hop : opField cmd ≠ 0 := by rw [ne_eq, opField_eq_zero_iff]; omega
  rw [plen, if_neg hop, if_neg]
  rintro ⟨h3, h0⟩
  exact (fields_of_reserved h he hd).elim h3 (· h0)

/-- R62 as the spec's table has it. -/
theorem plen_eq (cmd : Byte) :
    plen cmd = if cmd.toNat ≤ 0x3F then cmd.toNat else if cmd = 0x40 ∨ cmd = 0x80 then 16 else 0 := by
  split
  case isTrue h => exact plen_of_le h
  case isFalse h =>
    split
    case isTrue hc => obtain rfl | rfl := hc <;> rfl
    case isFalse hc =>
      obtain ⟨he, hd⟩ := not_or.1 hc
      exact plen_of_reserved (by omega) he hd

theorem interpret_construct128 (payload : List Byte) : interpret 0x10 payload = .ok (.construct128 (ofBytes 128 payload)) := rfl

theorem interpret_construct192 (payload : List Byte) : interpret 0x18 payload = .ok (.construct192 (ofBytes 192 payload)) := rfl

theorem interpret_construct256 (payload : List Byte) : interpret 0x20 payload = .ok (.construct256 (ofBytes 256 payload)) := rfl

theorem interpret_encrypt (payload : List Byte) : interpret 0x40 payload = .ok (.encrypt (ofBytes 128 payload)) := rfl

theorem interpret_decrypt (payload : List Byte) : interpret 0x80 payload = .ok (.decrypt (ofBytes 128 payload)) := rfl

/-- R151: a CONSTRUCT of another length than 16, 24 or 32 names no operation. -/
theorem interpret_unsupported {cmd : Byte} (h : cmd.toNat ≤ 0x3F) (hn : cmd.toNat ∉ [16, 24, 32]) (payload : List Byte) :
    interpret cmd payload = .error .invalidKeyLength := by
  have hklen (klen : BitVec 6) (hk : klen.toNat ∈ [16, 24, 32]) : klenField cmd ≠ klen := by
    rw [ne_eq, klenField_eq_iff, Nat.mod_eq_of_lt (by omega)]
    exact fun he => hn (he ▸ hk)
  rw [interpret, if_pos ((opField_eq_zero_iff cmd).2 h), if_neg (hklen 16 (by decide)), if_neg (hklen 24 (by decide)),
    if_neg (hklen 32 (by decide))]

/-- R152: a byte above the CONSTRUCTs that is neither ENCRYPT nor DECRYPT names no operation. -/
theorem interpret_reserved {cmd : Byte} (h : 0x3F < cmd.toNat) (he : cmd ≠ 0x40) (hd : cmd ≠ 0x80) (payload : List Byte) :
    interpret cmd payload = .error .illegalCommand := by
  have hop : opField cmd ≠ 0 := by rw [ne_eq, opField_eq_zero_iff]; omega
  have hcipher (op : BitVec 2) (h3 : op ≠ 3) : ¬ (opField cmd = op ∧ klenField cmd = 0) := by
    rintro ⟨rfl, h0⟩
    exact (fields_of_reserved h he hd).elim h3 (· h0)
  rw [interpret, if_neg hop, if_neg (hcipher 1 (by decide)), if_neg (hcipher 2 (by decide))]

/-! ## Payload bytes and the operand (R63) -/

/-- The bytes of an operand made of `n` bytes that it has room for are those bytes. -/
theorem leBytes_ofBytes_of_length {w n : Nat} {bs : List Byte} (hn : bs.length = n) (hw : 256 ^ n ≤ 2 ^ w) :
    leBytes n (ofBytes w bs).toNat = bs := by
  subst hn
  exact leBytes_ofBytes bs hw

theorem getElem?_leBytes_toNat {w : Nat} (n : Nat) (v : BitVec w) (k : Nat) (hk : k < n) :
    (leBytes n v.toNat)[k]? = some (v.extractLsb' (8 * k) 8) := by
  rw [getElem?_leBytes, if_pos hk, ofNat_div_eq_extract]

/-- The command byte of an instruction selects it, with the operand its payload bytes spell. -/
theorem interpret_encoding (i : Instr) : interpret (commandByte i) (payloadBytes i) = .ok i := by
  cases i with
  | construct128 k => rw [commandByte, interpret_construct128, payloadBytes, ofBytes_leBytes 16 k (by decide)]
  | construct192 k => rw [commandByte, interpret_construct192, payloadBytes, ofBytes_leBytes 24 k (by decide)]
  | construct256 k => rw [commandByte, interpret_construct256, payloadBytes, ofBytes_leBytes 32 k (by decide)]
  | encrypt p => rw [commandByte, interpret_encrypt, payloadBytes, ofBytes_leBytes 16 p (by decide)]
  | decrypt c => rw [commandByte, interpret_decrypt, payloadBytes, ofBytes_leBytes 16 c (by decide)]

/-! ## The decoder (R66, R69) -/

/-- Settles O1: the payload has the length its command byte announces, and spells the operand. -/
theorem decodeOfEncode : Obligations.DecodeOfEncode := by
  intro i rest
  exact decode_eq_command_iff.2
    ⟨commandByte i, payloadBytes i, List.cons_append .., length_payloadBytes i, interpret_encoding i⟩

/-- Settles O5: by the command byte, the five defined ones first. -/
theorem commandByteMap : Obligations.CommandByteMap := by
  intro cmd payload rest hlen
  rw [List.cons_append, decode_whole cmd payload rest hlen]
  split_ifs with h16 h24 h32 henc hdec hle
  · rw [h16, interpret_construct128]
  · rw [h24, interpret_construct192]
  · rw [h32, interpret_construct256]
  · rw [henc, interpret_encrypt]
  · rw [hdec, interpret_decrypt]
  · have hn : cmd.toNat ∉ [16, 24, 32] := by
      simp only [List.mem_cons, List.not_mem_nil, or_false, not_or]
      exact ⟨mt (BitVec.eq_of_toNat_eq (y := 0x10)) h16,
        mt (BitVec.eq_of_toNat_eq (y := 0x18)) h24, mt (BitVec.eq_of_toNat_eq (y := 0x20)) h32⟩
    rw [interpret_unsupported hle hn]
  · rw [interpret_reserved (by omega) henc hdec]

/-- Settles O2: the command byte is one of the five, and the bytes of the operand are the payload it was made of. -/
theorem decodedBytesAreEncoding : Obligations.DecodedBytesAreEncoding := by
  intro bs i rest h
  obtain ⟨cmd, payload, rfl, hlen, -⟩ := decode_eq_command_iff.1 h
  rw [← List.cons_append, commandByteMap cmd payload rest hlen] at h
  split_ifs at h <;> cases h
  all_goals
    subst cmd
    exact congrArg (fun bs => _ :: (bs ++ rest)) (leBytes_ofBytes_of_length hlen (by decide)).symm

/-- Settles O4: by the ranges of R62's table. -/
theorem payloadLengthByCommandByte : Obligations.PayloadLengthByCommandByte := by
  refine ⟨plen_eq, fun cmd payload rest hle hn hlen => ?_⟩
  exact decode_eq_rejected_iff.2
    ⟨cmd, payload, List.cons_append .., hlen.trans (plen_of_le hle).symm, interpret_unsupported hle hn payload⟩

/-- Settles O7: byte `k` of the little-endian bytes of a bit vector is its bits `8k` to `8k + 7`. -/
theorem operandBytesInOrder : Obligations.OperandBytesInOrder :=
  ⟨fun v k hk => ⟨getElem?_leBytes_toNat 16 v k hk, getElem?_leBytes_toNat 16 v k hk, getElem?_leBytes_toNat 16 v k hk,
      getElem?_blockBytes v k hk⟩,
    fun v k hk => getElem?_leBytes_toNat 24 v k hk, fun v k hk => getElem?_leBytes_toNat 32 v k hk,
    fun v => ⟨length_leBytes .., length_leBytes .., length_leBytes .., length_blockBytes v⟩⟩

/-- Settles O3: each word is an encoding, byte for byte. -/
theorem decodeOfHandWrittenWords : Obligations.DecodeOfHandWrittenWords :=
  ⟨decodeOfEncode (.construct128 0x0f0e0d0c0b0a09080706050403020100) [0xc0],
    decodeOfEncode (.construct192 0x17161514131211100f0e0d0c0b0a09080706050403020100) [],
    decodeOfEncode (.construct256 0x1f1e1d1c1b1a191817161514131211100f0e0d0c0b0a09080706050403020100) [],
    decodeOfEncode (.encrypt 0xffeeddccbbaa99887766554433221100) [],
    decodeOfEncode (.decrypt 0xffeeddccbbaa99887766554433221100) []⟩

/-! ## How many command bytes there are of each kind (R67) -/

/-- The command bytes of the five commands (R66). -/
def definedBytes : List Byte := [0x10, 0x18, 0x20, 0x40, 0x80]

/-- Counting what the decoder makes of the 256 command bytes is counting the bytes, if the byte alone decides what is counted:
63 bytes are a whole payload for each. -/
theorem countP_decode_heads (p : Decoded → Bool) (q : Byte → Bool)
    (h : ∀ (cmd : Byte) (payload rest : List Byte), payload.length = plen cmd → p (decode (cmd :: payload ++ rest)) = q cmd) :
    ((List.range 256).map fun n => decode (BitVec.ofNat 8 n :: List.replicate 63 0)).countP p =
      (List.range 256).countP fun n => q (BitVec.ofNat 8 n) := by
  rw [List.countP_map]
  congr 1
  funext n
  have hle : plen (BitVec.ofNat 8 n) ≤ 63 := by rw [plen_eq]; split_ifs <;> omega
  have hlen : ((List.replicate 63 (0 : Byte)).take (plen (BitVec.ofNat 8 n))).length = plen (BitVec.ofNat 8 n) := by
    rw [List.length_take, List.length_replicate, Nat.min_eq_left hle]
  have hq := h _ _ ((List.replicate 63 (0 : Byte)).drop (plen (BitVec.ofNat 8 n))) hlen
  rwa [List.cons_append, List.take_append_drop] at hq

/-- Settles O6: the map of R66 sorts the bytes into the defined ones, the others up to 0x3F, and the rest. -/
theorem commandByteCounts : Obligations.CommandByteCounts := by
  refine ⟨(countP_decode_heads _ (fun cmd => cmd ∈ definedBytes) ?_).trans (by decide +kernel),
    (countP_decode_heads _ (fun cmd => cmd ∉ definedBytes ∧ cmd.toNat ≤ 0x3F) ?_).trans (by decide +kernel),
    (countP_decode_heads _ (fun cmd => cmd ∉ definedBytes ∧ 0x3F < cmd.toNat) ?_).trans (by decide +kernel)⟩
  all_goals
    intro cmd payload rest hlen
    rw [commandByteMap cmd payload rest hlen]
    split_ifs <;> simp_all [definedBytes]

/-! ## A stream of bytes falls into whole commands and a tail (R62, R69) -/

theorem decode_eq_empty_iff {bs : List Byte} : decode bs = .empty ↔ bs = [] := by
  cases bs with
  | nil => simp [decode]
  | cons cmd bs =>
    obtain ⟨-, hd⟩ | ⟨_, _, -, -, ⟨_, -, hd⟩ | ⟨_, -, hd⟩⟩ := decode_cons_cases cmd bs <;> simp [hd]

/-- One byte and `PLEN` payload bytes, which the decoder takes whole, as a command or as a rejected one. -/
abbrev WholeCommand (f : List Byte) : Prop := (∃ i, decode f = .command i []) ∨ (∃ e, decode f = .rejected e [])

/-- No byte, or a command of which bytes are missing. -/
abbrev UnfinishedTail (r : List Byte) : Prop := decode r = .empty ∨ decode r = .incomplete

theorem wholeCommand_iff {f : List Byte} :
    WholeCommand f ↔ ∃ cmd payload, f = cmd :: payload ∧ payload.length = plen cmd := by
  constructor
  · rintro (⟨i, h⟩ | ⟨e, h⟩)
    · obtain ⟨cmd, payload, rfl, hlen, -⟩ := decode_eq_command_iff.1 h
      exact ⟨cmd, payload, by simp, hlen⟩
    · obtain ⟨cmd, payload, rfl, hlen, -⟩ := decode_eq_rejected_iff.1 h
      exact ⟨cmd, payload, by simp, hlen⟩
  · rintro ⟨cmd, payload, rfl, hlen⟩
    cases hi : interpret cmd payload with
    | ok i => exact .inl ⟨i, decode_eq_command_iff.2 ⟨cmd, payload, by simp, hlen, hi⟩⟩
    | error e => exact .inr ⟨e, decode_eq_rejected_iff.2 ⟨cmd, payload, by simp, hlen, hi⟩⟩

theorem unfinishedTail_cons_iff {cmd : Byte} {bs : List Byte} :
    UnfinishedTail (cmd :: bs) ↔ bs.length < plen cmd := by
  constructor
  · intro h
    obtain ⟨hlt, -⟩ | ⟨payload, rest, -, -, ⟨i, -, hd⟩ | ⟨e, -, hd⟩⟩ := decode_cons_cases cmd bs
    · exact hlt
    · simp [UnfinishedTail, hd] at h
    · simp [UnfinishedTail, hd] at h
  · exact fun h => .inr (decode_incomplete cmd bs h)

/-- Every byte sequence splits: it is unfinished, or a whole command stands at its head. -/
theorem exists_split (bs : List Byte) :
    ∃ (fs : List (List Byte)) (r : List Byte), (∀ f ∈ fs, WholeCommand f) ∧ UnfinishedTail r ∧ fs.flatten ++ r = bs := by
  induction hn : bs.length using Nat.strong_induction_on generalizing bs with
  | _ n ih =>
    cases bs with
    | nil => exact ⟨[], [], by simp, .inl rfl, rfl⟩
    | cons cmd bs =>
      obtain ⟨-, hd⟩ | ⟨payload, rest, rfl, hlen, -⟩ := decode_cons_cases cmd bs
      · exact ⟨[], cmd :: bs, by simp, .inr hd, rfl⟩
      · obtain ⟨fs, r, hfs, hr, rfl⟩ := ih rest.length (by simp [← hn]) rest rfl
        refine ⟨(cmd :: payload) :: fs, r, ?_, hr, by simp⟩
        exact List.forall_mem_cons.2 ⟨wholeCommand_iff.2 ⟨cmd, payload, rfl, hlen⟩, hfs⟩

/-- A whole command is no head of an unfinished tail: its payload is there. -/
theorem not_unfinishedTail_append {f bs : List Byte} (hf : WholeCommand f) : ¬ UnfinishedTail (f ++ bs) := by
  obtain ⟨cmd, payload, rfl, hlen⟩ := wholeCommand_iff.1 hf
  rw [List.cons_append, unfinishedTail_cons_iff, List.length_append]
  omega

/-- Two whole commands at the head of one stream have the same command byte, hence the same length, and are equal. -/
theorem wholeCommand_append_inj {f g bs cs : List Byte} (hf : WholeCommand f) (hg : WholeCommand g)
    (h : f ++ bs = g ++ cs) : f = g ∧ bs = cs := by
  obtain ⟨cmd, payload, rfl, hlen⟩ := wholeCommand_iff.1 hf
  obtain ⟨cmd', payload', rfl, hlen'⟩ := wholeCommand_iff.1 hg
  obtain rfl : cmd = cmd' := (List.cons.inj h).1
  exact List.append_inj h (by simp [hlen, hlen'])

/-- Two splits of one byte sequence are equal, command by command. -/
theorem split_unique {fs gs : List (List Byte)} {r q : List Byte} (hfs : ∀ f ∈ fs, WholeCommand f) (hr : UnfinishedTail r)
    (hgs : ∀ g ∈ gs, WholeCommand g) (hq : UnfinishedTail q) (h : fs.flatten ++ r = gs.flatten ++ q) :
    fs = gs ∧ r = q := by
  induction fs generalizing gs with
  | nil =>
    cases gs with
    | nil => exact ⟨rfl, h⟩
    | cons g gs =>
      have hg := (List.forall_mem_cons.1 hgs).1
      have hr' : r = g ++ (gs.flatten ++ q) := by simpa using h
      exact absurd (hr' ▸ hr) (not_unfinishedTail_append hg)
  | cons f fs ih =>
    obtain ⟨hf, hfs⟩ := List.forall_mem_cons.1 hfs
    cases gs with
    | nil =>
      have hq' : q = f ++ (fs.flatten ++ r) := by simpa using h.symm
      exact absurd (hq' ▸ hq) (not_unfinishedTail_append hf)
    | cons g gs =>
      obtain ⟨hg, hgs⟩ := List.forall_mem_cons.1 hgs
      obtain ⟨hfg, h⟩ : f = g ∧ fs.flatten ++ r = gs.flatten ++ q :=
        wholeCommand_append_inj hf hg (by simpa using h)
      obtain ⟨hfs', hrq⟩ := ih hfs hgs h
      exact ⟨by rw [hfg, hfs'], hrq⟩

/-- Settles O8: `exists_split` by induction on the length, `split_unique` by induction on the commands. -/
theorem streamSplitsUniquely : Obligations.StreamSplitsUniquely := by
  intro bs
  obtain ⟨fs, r, hfs, hr, rfl⟩ := exists_split bs
  refine ⟨(fs, r), ⟨hfs, hr, rfl⟩, ?_⟩
  rintro ⟨gs, q⟩ ⟨hgs, hq, h⟩
  obtain ⟨rfl, rfl⟩ := split_unique hgs hq hfs hr h
  rfl

/-! ## The assembler lines (R70) -/

theorem length_digitBytes {n : Nat} {ds : List Nibble} (h : ds.length = 2 * n) : (digitBytes ds).length = n := by
  induction n generalizing ds with
  | zero =>
    obtain rfl := List.eq_nil_of_length_eq_zero h
    rfl
  | succ n ih =>
    match ds, h with
    | _ :: _ :: ds, h => exact congrArg Nat.succ (ih (Nat.succ.inj (Nat.succ.inj h)))

/-- A line with the digits of `n` bytes assembles to the command byte and those bytes. -/
theorem asmBytes_of_length {n : Nat} {ds : List Nibble} (cmd : Byte) (h : ds.length = 2 * n) :
    asmBytes cmd n ds = some ((cmd :: digitBytes ds).map .byte) := if_pos h

/-- Such a line assembles to the encoding of the command whose operand is made of its digits. -/
theorem asmBytes_eq_operandBytes {n w : Nat} {ds : List Nibble} (cmd : Byte) (h : ds.length = 2 * n)
    (hw : 256 ^ n ≤ 2 ^ w) :
    asmBytes cmd n ds = some ((cmd :: leBytes n (ofBytes w (digitBytes ds)).toNat).map .byte) := by
  rw [asmBytes_of_length cmd h, leBytes_ofBytes_of_length (length_digitBytes h) hw]

/-- `CONSTRUCTN` of an unsupported length assembles to bytes that the decoder rejects with their payload. -/
theorem decode_constructN {n : Nat} {ds : List Nibble} (hle : n ≤ 63) (hn : n ∉ [16, 24, 32]) (h : ds.length = 2 * n)
    (rest : List Byte) :
    decode (BitVec.ofNat 8 n :: digitBytes ds ++ rest) = .rejected .invalidKeyLength rest := by
  have hcmd : (BitVec.ofNat 8 n).toNat = n := by rw [BitVec.toNat_ofNat]; omega
  exact payloadLengthByCommandByte.2 _ _ rest (hcmd.trans_le hle) (hcmd.symm ▸ hn) ((length_digitBytes h).trans hcmd.symm)

/-- Settles O9: each line is its command byte and the bytes of its digits, which are the bytes of the operand made of them. -/
theorem assemblerLines : Obligations.AssemblerLines := by
  refine ⟨fun ds h => ⟨?_, ?_, ?_⟩, fun ds h => ?_, fun ds h => ?_, fun ds => ⟨rfl, rfl, rfl⟩, fun n ds rest hle hn h => ?_⟩
  · exact asmBytes_eq_operandBytes 0x10 h (by decide)
  · exact asmBytes_eq_operandBytes 0x40 h (by decide)
  · exact asmBytes_eq_operandBytes 0x80 h (by decide)
  · exact asmBytes_eq_operandBytes 0x18 h (by decide)
  · exact asmBytes_eq_operandBytes 0x20 h (by decide)
  · exact ⟨BitVec.ofNat 8 n :: digitBytes ds, (if_pos hle).trans (asmBytes_of_length _ h), decode_constructN hle hn h rest⟩

end Sys2Proof

namespace Sys2Proof.Safety

open Machine

/-! ## The response a command is answered with (R64, R65) -/

/-- From `s` to `t` the core answers with the one response `r`: it is legal, the core is idle afterwards, and a rejection leaves
every register as it was. -/
structure Answers (r : Response) (s t : State) : Prop where
  legal : r.Legal
  respChan : t.respChan = s.respChan ++ r.bytes
  cmdChan : t.cmdChan = s.cmdChan
  seq : t.seq = .idle
  kept : r.Rejects → t.key = s.key ∧ t.rk = s.rk ∧ t.keyValid = s.keyValid ∧ t.temp = s.temp ∧ t.operand = s.operand

theorem answers_completeConstruct (k32 : Key) (s : State) : Answers ⟨stOk, []⟩ s (completeConstruct k32 s) :=
  ⟨by decide, rfl, rfl, rfl, fun h => absurd h (by decide)⟩

theorem answers_raise (e : CmdError) (s : State) : Answers ⟨errorStatus e, []⟩ s (raise e s) :=
  ⟨by cases e <;> decide, rfl, rfl, rfl, fun _ => ⟨rfl, rfl, rfl, rfl, rfl⟩⟩

/-- The end of a cipher command answers its Block, whatever the operand buffer holds by then. -/
theorem answers_finishCipher (out : Block) (s : State) (x : Operand) :
    Answers ⟨stOkData, blockBytes out⟩ s (finishCipher out { s with operand := x }) :=
  ⟨⟨by simp [stOkData], length_blockBytes out⟩, rfl, rfl, rfl, fun h => by simp [Response.Rejects, stOkData] at h⟩

/-- The status a command is answered with: a CONSTRUCT is accepted, a cipher command if a key is loaded (R65, R153). -/
def statusOf (keyValid : Bool) : Instr → Byte
  | .construct128 _ | .construct192 _ | .construct256 _ => stOk
  | .encrypt _ | .decrypt _ => if keyValid then stOkData else errorStatus .noKey

theorem statusOf_cipher (keyValid : Bool) {i : Instr} (hi : ∃ b, i = .encrypt b ∨ i = .decrypt b) :
    statusOf keyValid i = if keyValid then stOkData else errorStatus .noKey := by
  obtain ⟨b, rfl | rfl⟩ := hi <;> rfl

theorem statusOf_construct (keyValid : Bool) {i : Instr} (hp : ∀ p, i ≠ .encrypt p) (hc : ∀ c, i ≠ .decrypt c) :
    statusOf keyValid i = stOk := by
  cases i with
  | construct128 | construct192 | construct256 => rfl
  | encrypt p => exact absurd rfl (hp p)
  | decrypt c => exact absurd rfl (hc c)

/-- Of the five commands the cipher commands alone are ever rejected, while no key is loaded. -/
theorem statusOf_rejects_iff (keyValid : Bool) (i : Instr) :
    (statusOf keyValid i).getLsbD 7 = true ↔ keyValid = false ∧ ∃ b, i = .encrypt b ∨ i = .decrypt b := by
  cases i <;> cases keyValid <;> simp [statusOf, stOk, stOkData, errorStatus]

/-- Every command is answered, in every state. -/
theorem exec_answered (i : Instr) (s : State) :
    ∃ t r, exec i s = .next t ∧ Answers r s t ∧ r.st = statusOf s.keyValid i := by
  by_cases hi : ∃ b, i = .encrypt b ∨ i = .decrypt b
  · rw [statusOf_cipher s.keyValid hi]
    obtain ⟨hk, he⟩ | ⟨hk, out, he⟩ := exec_cipher hi s
    · exact ⟨_, _, he, answers_raise .noKey s, by rw [hk]; rfl⟩
    · exact ⟨_, _, he, answers_finishCipher out s .none, by rw [hk]; rfl⟩
  · have hp : ∀ p, i ≠ .encrypt p := fun p hp => hi ⟨p, .inl hp⟩
    have hc : ∀ c, i ≠ .decrypt c := fun c hc => hi ⟨c, .inr hc⟩
    obtain ⟨k32, he⟩ := exec_construct hp hc
    exact ⟨_, _, he s, answers_completeConstruct k32 s, (statusOf_construct _ hp hc).symm⟩

/-- The idle core answers the command its decoder reads. -/
theorem step_answers_command {s : State} {i : Instr} {rest : List Byte} (h : Ready s)
    (hd : decode s.cmdChan = .command i rest) :
    ∃ t r, step s = .next t ∧ Answers r { s with cmdChan := rest } t ∧ r.st = statusOf s.keyValid i := by
  rw [stepRunsDecodedCommand s i rest h hd]
  exact exec_answered i _

/-- The idle core answers the command its decoder rejects. -/
theorem step_answers_rejected {s : State} {e : CmdError} {rest : List Byte} (h : Ready s)
    (hd : decode s.cmdChan = .rejected e rest) :
    ∃ t r, step s = .next t ∧ Answers r { s with cmdChan := rest } t ∧ r.st = errorStatus e :=
  ⟨_, _, step_of_rejected h hd, answers_raise e _, rfl⟩

/-- Settles O14: by what the decoder finds on the channel. -/
theorem commandAnsweredOnce : Obligations.CommandAnsweredOnce := by
  intro s hs hne hni
  cases hd : decode s.cmdChan with
  | empty => exact absurd hd hne
  | incomplete => exact absurd hd hni
  | command i rest =>
    obtain ⟨t, r, hst, ha, hr⟩ := step_answers_command hs hd
    refine ⟨t, r, hst, ha.legal, ha.respChan, ha.seq, ha.kept, ?_⟩
    rw [Response.Rejects, hr, statusOf_rejects_iff]
    simp [exists_or]
  | rejected e rest =>
    obtain ⟨t, r, hst, ha, hr⟩ := step_answers_rejected hs hd
    have hrej : r.Rejects := by rw [Response.Rejects, hr]; cases e <;> rfl
    exact ⟨t, r, hst, ha.legal, ha.respChan, ha.seq, ha.kept, iff_of_true hrej (.inl ⟨e, rest, rfl⟩)⟩

/-- The command byte gives what the decoder finds (R66), and that gives the status. -/
theorem step_answers_whole {s : State} {cmd : Byte} {payload rest : List Byte} (h : Ready s)
    (hc : s.cmdChan = cmd :: payload ++ rest) (hlen : payload.length = plen cmd) :
    ∃ t r, step s = .next t ∧ Answers r { s with cmdChan := rest } t ∧
      r.st = (if cmd = 0x10 ∨ cmd = 0x18 ∨ cmd = 0x20 then 0x00
        else if cmd = 0x40 ∨ cmd = 0x80 then (if s.keyValid then 0x01 else 0x83)
        else if cmd.toNat ≤ 0x3F then 0x81 else 0x82) := by
  have hd := commandByteMap cmd payload rest hlen
  rw [← hc] at hd
  split_ifs at hd with h16 h24 h32 henc hdec hle
  · rw [if_pos (.inl h16)]
    exact step_answers_command h hd
  · rw [if_pos (.inr (.inl h24))]
    exact step_answers_command h hd
  · rw [if_pos (.inr (.inr h32))]
    exact step_answers_command h hd
  · rw [if_neg (by simp [henc]), if_pos (.inl henc)]
    exact step_answers_command h hd
  · rw [if_neg (by simp [hdec]), if_pos (.inr hdec)]
    exact step_answers_command h hd
  · rw [if_neg (not_or.2 ⟨h16, not_or.2 ⟨h24, h32⟩⟩), if_neg (not_or.2 ⟨henc, hdec⟩), if_pos hle]
    exact step_answers_rejected h hd
  · rw [if_neg (not_or.2 ⟨h16, not_or.2 ⟨h24, h32⟩⟩), if_neg (not_or.2 ⟨henc, hdec⟩), if_neg hle]
    exact step_answers_rejected h hd

/-- Settles O18: `step_answers_whole` names the response and its status, and a legal response has the data R64 gives it. -/
theorem statusByCommandByteAndKey : Obligations.StatusByCommandByteAndKey := by
  intro s cmd payload rest hs hc hlen
  obtain ⟨t, r, hst, ha, hr⟩ := step_answers_whole hs hc hlen
  refine ⟨t, r.st, r.data, hst, ha.cmdChan, ha.respChan, hr, ha.legal.2, fun h7 => ?_⟩
  obtain ⟨hkey, hrk, hkv, htemp, -⟩ := ha.kept h7
  exact ⟨hkey, hrk, hkv, htemp, ha.seq⟩

/-! ## The response channel (R64) -/

theorem responsesOk_nil : ResponsesOk [] := ⟨[], by simp, rfl⟩

/-- One more legal response leaves the channel a sequence of whole legal responses. -/
theorem ResponsesOk.append {bs : List Byte} (h : ResponsesOk bs) {r : Response} (hr : r.Legal) :
    ResponsesOk (bs ++ r.bytes) := by
  obtain ⟨rs, hrs, rfl⟩ := h
  exact ⟨rs ++ [r], List.forall_mem_append.2 ⟨hrs, List.forall_mem_singleton.2 hr⟩, by simp⟩

theorem Answers.responsesOk {r : Response} {s t : State} (ha : Answers r s t) (h : ResponsesOk s.respChan) :
    ResponsesOk t.respChan := by
  rw [ha.respChan]
  exact h.append ha.legal

/-- A line answers with one response, or leaves the response channel as it is. -/
theorem advance_answers {s t : State} (h : advance s = .next t) : (∃ r, Answers r s t) ∨ t.respChan = s.respChan := by
  obtain ⟨-, rfl⟩ | ⟨k32, -, -, rfl⟩ | ⟨_, -, -, rfl⟩ | ⟨_, _, -, -, rfl⟩ | ⟨T, -, -, rfl⟩ | ⟨_, -, -, rfl⟩ |
    ⟨_, _, -, -, rfl⟩ | ⟨T, -, -, rfl⟩ := advance_cases h
  · exact .inr rfl
  · exact .inl ⟨_, answers_completeConstruct k32 s⟩
  · exact .inr rfl
  · exact .inr rfl
  · exact .inl ⟨_, answers_finishCipher _ s s.operand⟩
  · exact .inr rfl
  · exact .inr rfl
  · exact .inl ⟨_, answers_finishCipher _ s s.operand⟩

/-- Settles O57: reset empties the channel, and any other step adds at most one legal response. -/
theorem stepKeepsResponses : Obligations.StepKeepsResponses := by
  intro s t hok hst
  obtain ⟨-, rfl⟩ | ⟨-, -, i, rest, -, he⟩ | ⟨-, -, e, rest, -, rfl⟩ | ⟨-, -, ha⟩ := step_cases hst
  · exact responsesOk_nil
  · obtain ⟨t', r, he', ha, -⟩ := exec_answered i { s with cmdChan := rest }
    cases he'.symm.trans he
    exact ha.responsesOk hok
  · exact (answers_raise e { s with cmdChan := rest }).responsesOk hok
  · obtain ⟨r, ha⟩ | hsame := advance_answers ha
    · exact ha.responsesOk hok
    · rwa [hsame]

/-! ## Where the core waits (R69, R180) -/

theorem step_eq_quiescent {s : State} (h : Quiescent s) : step s = .fault .quiescent := by
  obtain ⟨hr, hs, hc⟩ := h
  rw [step_idle s hr hs, runCommand, hc]
  rfl

theorem step_eq_awaitingPayload {s : State} (h : Waiting s) : step s = .fault .awaitingPayload := by
  obtain ⟨hr, hs, hd⟩ := h
  rw [step_idle s hr hs, runCommand, hd]

/-- Settles O11: the two stops of the idle core. -/
theorem incompleteCommandWaits : Obligations.IncompleteCommandWaits := by
  constructor
  · rintro s cmd bs ⟨hr, hs⟩ hc hlt
    exact step_eq_awaitingPayload ⟨hr, hs, hc ▸ decode_incomplete cmd bs hlt⟩
  · rintro s ⟨hr, hs⟩ hc
    exact step_eq_quiescent ⟨hr, hs, hc⟩

/-- In a state of the invariant the line of the running command finds the value it reads (R22). -/
theorem Inv.exists_advance {s : State} (h : Inv s) : ∃ t, Machine.advance s = .next t := by
  have rounds (hs : holdsTemp s.seq = true) := ((phaseOk_of_holdsTemp hs).1 h.phase).2.2
  cases hs : s.seq with
  | idle => exact ⟨_, advance_idle s hs⟩
  | ks =>
    obtain ⟨-, k32, ho⟩ := (phaseOk_of_ks hs).1 h.phase
    exact ⟨_, advance_ks s k32 hs ho⟩
  | encIp =>
    obtain ⟨-, -, p, ho⟩ := (phaseOk_of_ip (.inl hs)).1 h.phase
    exact ⟨_, advance_encIp s p hs ho⟩
  | encRound r =>
    obtain ⟨T, ht⟩ := rounds (by rw [hs]; rfl)
    exact ⟨_, advance_encRound s r T hs ht⟩
  | encFinal =>
    obtain ⟨T, ht⟩ := rounds (by rw [hs]; rfl)
    exact ⟨_, advance_encFinal s T hs ht⟩
  | decIp =>
    obtain ⟨-, -, c, ho⟩ := (phaseOk_of_ip (.inr hs)).1 h.phase
    exact ⟨_, advance_decIp s c hs ho⟩
  | decRound r =>
    obtain ⟨T, ht⟩ := rounds (by rw [hs]; rfl)
    exact ⟨_, advance_decRound s r T hs ht⟩
  | decFinal =>
    obtain ⟨T, ht⟩ := rounds (by rw [hs]; rfl)
    exact ⟨_, advance_decFinal s T hs ht⟩

/-- The idle core is quiescent, waits, or answers. -/
theorem waits_or_steps_of_ready {s : State} (h : Ready s) : Quiescent s ∨ Waiting s ∨ ∃ t, step s = .next t := by
  cases hd : decode s.cmdChan with
  | empty => exact .inl ⟨h.1, h.2, decode_eq_empty_iff.1 hd⟩
  | incomplete => exact .inr (.inl ⟨h.1, h.2, hd⟩)
  | command i rest =>
    obtain ⟨t, -, hst, -⟩ := step_answers_command h hd
    exact .inr (.inr ⟨t, hst⟩)
  | rejected e rest => exact .inr (.inr ⟨_, step_of_rejected h hd⟩)

/-- A core of the invariant is quiescent, waits, or steps. -/
theorem Inv.waits_or_steps {s : State} (h : Inv s) : Quiescent s ∨ Waiting s ∨ ∃ t, step s = .next t := by
  cases hr : s.resetLine with
  | true => exact .inr (.inr ⟨_, step_reset s hr⟩)
  | false =>
    by_cases hs : s.seq = .idle
    · exact waits_or_steps_of_ready ⟨hr, hs⟩
    · obtain ⟨t, ht⟩ := h.exists_advance
      exact .inr (.inr ⟨t, (step_running s hr hs).trans ht⟩)

/-- Settles O58: of the three cases of `Inv.waits_or_steps` the outcome of the step tells which one holds. -/
theorem coreStopsOnlyToWait : Obligations.CoreStopsOnlyToWait := by
  intro s h
  refine ⟨⟨fun hst => ?_, step_eq_quiescent⟩, ⟨fun hst => ?_, step_eq_awaitingPayload⟩, fun hq hw => ?_⟩
  · obtain hq | hw | ⟨t, ht⟩ := h.waits_or_steps
    · exact hq
    · cases (step_eq_awaitingPayload hw).symm.trans hst
    · cases ht.symm.trans hst
  · obtain hq | hw | ⟨t, ht⟩ := h.waits_or_steps
    · cases (step_eq_quiescent hq).symm.trans hst
    · exact hw
    · cases ht.symm.trans hst
  · obtain hq' | hw' | ht := h.waits_or_steps
    · exact absurd hq' hq
    · exact absurd hw' hw
    · exact ht

/-! ## Bytes that arrive late (R69) -/

/-- Bytes that arrive one after another stand at the end of the command channel, in order. -/
theorem applyInput_bytes (bs : List Byte) (s : State) :
    (bs.map Input.byte).foldl (fun t x => applyInput x t) s = { s with cmdChan := s.cmdChan ++ bs } := by
  induction bs generalizing s with
  | nil => simp
  | cons b bs ih =>
    rw [List.map_cons, List.foldl_cons, ih]
    simp [applyInput]

/-- Settles O12: with the late bytes the channel holds the encoding of the command, which the decoder reads back. -/
theorem lateBytesCompleteTheCommand : Obligations.LateBytesCompleteTheCommand := by
  intro s i front back hs hc hb
  have hd : decode (s.cmdChan ++ back) = .command i [] := by
    rw [hc, ← hb, ← List.append_nil (encode i)]
    exact decodeOfEncode i []
  rw [applyInput_bytes]
  exact stepRunsDecodedCommand { s with cmdChan := s.cmdChan ++ back } i [] hs hd

end Sys2Proof.Safety

/-! # The Table Set (40_table_set.md)

Which bits a permutation table gathers, how many of them are 1, when one table undoes another, and what the default tables hold. -/

namespace Sys2Proof.Machine

/-! ## The 1 bits of a permuted Block (R83) -/

/-- Bits counted at 0 to 127 are bits counted over the indices of a table. -/
theorem countP_range_eq_countP_finRange (p : Nat → Bool) :
    (List.range 128).countP p = (List.finRange 128).countP fun i => p i.val := by
  rw [← List.map_coe_finRange_eq_range, List.countP_map]
  rfl

/-- The entries of a table in which no value occurs twice are the indices in another order. -/
theorem map_get_perm_finRange {T : BitTable} (hT : Function.Injective T.get) :
    ((List.finRange 128).map T.get).Perm (List.finRange 128) :=
  Equiv.Perm.map_finRange_perm (Equiv.ofBijective T.get (Finite.injective_iff_bijective.1 hT))

/-- R83: the bits of the output are those of the input in another order, so as many of them are 1. -/
theorem countP_bit_permute {T : BitTable} (hT : Function.Injective T.get) (B : Block) :
    (List.range 128).countP (bit (permute T B)) = (List.range 128).countP (bit B) :=
  calc (List.range 128).countP (bit (permute T B))
    _ = (List.finRange 128).countP fun i => bit B (T.get i).val := by
      simp only [countP_range_eq_countP_finRange, bit_permute]
    _ = ((List.finRange 128).map T.get).countP fun t => bit B t.val := by
      rw [List.countP_map]
      rfl
    _ = (List.finRange 128).countP fun t => bit B t.val := (map_get_perm_finRange hT).countP_eq _
    _ = (List.range 128).countP (bit B) := (countP_range_eq_countP_finRange _).symm

/-- Settles O30: `Permute` gathers, and a table without a double entry gathers each bit once. -/
theorem permuteGathers : Obligations.PermuteGathers := fun T B =>
  ⟨bit_permute T B, fun hT => countP_bit_permute (fun i j => hT i j) B⟩

/-! ## One table undoes another (R86) -/

/-- R86: where `T[S[i]] = i`, gathering through `T` and then through `S` takes bit `i` from bit `i`. -/
theorem permute_permute_of_inverse {S T : BitTable} (h : ∀ i, T.get (S.get i) = i) (B : Block) :
    permute S (permute T B) = B :=
  block_ext _ _ fun i hi =>
    calc bit (permute S (permute T B)) i
      _ = bit (permute T B) (S.get ⟨i, hi⟩).val := bit_permute S _ ⟨i, hi⟩
      _ = bit B (T.get (S.get ⟨i, hi⟩)).val := bit_permute T B _
      _ = bit B i := by rw [h]

/-- Settles O31: each order is one half of R87 (b). -/
theorem permutationsInverse : Obligations.PermutationsInverse := fun _ B hc =>
  ⟨permute_permute_of_inverse hc.fpInverts.2 B, permute_permute_of_inverse hc.fpInverts.1 B⟩

/-! ## The default tables (R81, R82, R84) -/

theorem config_ip_get_val : ∀ i : Fin 128, (config.ip.get i).val = 32 * (i.val % 4) + i.val / 4 := by decide +kernel

/-- R82: `FP` has this formula because it inverts the `IP` of R81. -/
theorem config_fp_get_val (i : Fin 128) : (config.fp.get i).val = 4 * (i.val % 32) + i.val / 32 := by
  have h := config_ip_get_val (config.fp.get i)
  rw [config_fpInverts.2 i] at h
  omega

theorem config_boxesDistinct : config.BoxesDistinct := by decide +kernel

/-- Settles O29: the two formulas, R87 (a) to (d), and R87 (e). -/
theorem defaultTables : Obligations.DefaultTables :=
  ⟨config_ip_get_val, config_fp_get_val, config_admitted, config_boxesDistinct⟩

end Sys2Proof.Machine

/-! # Key construction (41_key_construction.md)

What `CompleteConstruct` writes, which 32 bytes a padded Key has, and which keys of different lengths are the same Key. -/

namespace Sys2Proof.Machine

/-! ## What the three commands write (R90 to R93) -/

/-- R93: the three registers of the engine context, the phase and the response OK. -/
theorem completeConstruct_result (k32 : Key) (s : State) :
    (completeConstruct k32 s).key = k32 ∧ (completeConstruct k32 s).rk = keySchedule config k32 ∧
      (completeConstruct k32 s).keyValid = true ∧ (completeConstruct k32 s).seq = .idle ∧
      (completeConstruct k32 s).respChan = s.respChan ++ [0x00] :=
  ⟨completeConstruct_key .., completeConstruct_rk .., completeConstruct_keyValid .., completeConstruct_seq ..,
    completeConstruct_respChan ..⟩

/-- R91, R92: the bytes of a padded Key are the master key's, then `PAD_MARKER`, then zeros. -/
theorem leBytes_padKey {w n : Nat} (c : Config) (hn : n ≤ 31) (k : BitVec w) :
    leBytes 32 (padKey c n k).toNat = leBytes n k.toNat ++ [c.padMarker] ++ List.replicate (31 - n) 0 := by
  have hlen : (leBytes n k.toNat ++ c.padMarker :: List.replicate (31 - n) 0).length = 32 := by
    simp only [List.length_append, List.length_cons, List.length_replicate, length_leBytes]
    omega
  rw [padKey, leBytes_ofBytes_of_length hlen (by decide), List.append_cons]

/-- Settles O19: `CompleteConstruct` of the 32 bytes as they are. -/
theorem construct256Result : Obligations.Construct256Result := fun k s =>
  ⟨_, exec_construct256_eq k s, completeConstruct_result k s⟩

/-- Settles O20: `CompleteConstruct` of the padded Key, whose `PAD_MARKER` is the default 0xF0. -/
theorem construct192Result : Obligations.Construct192Result := fun k s =>
  ⟨_, _, leBytes_padKey config (by decide) k, exec_construct192_eq k s, completeConstruct_result _ s⟩

/-- Settles O21: `CompleteConstruct` of the padded Key, whose `PAD_MARKER` is the default 0xF0. -/
theorem construct128Result : Obligations.Construct128Result := fun k s =>
  ⟨_, _, leBytes_padKey config (by decide) k, exec_construct128_eq k s, completeConstruct_result _ s⟩

/-! ## Keys of different lengths (R94) -/

/-- A Key is determined by its 32 bytes. -/
theorem key_eq_of_leBytes_eq {K L : Key} (h : leBytes 32 K.toNat = leBytes 32 L.toNat) : K = L :=
  calc K
    _ = ofBytes 256 (leBytes 32 K.toNat) := (ofBytes_leBytes 32 K (by decide)).symm
    _ = ofBytes 256 (leBytes 32 L.toNat) := by rw [h]
    _ = L := ofBytes_leBytes 32 L (by decide)

/-- A Key that spells out the padding of a shorter key is the padded Key. -/
theorem padKey_eq_of_leBytes {w n : Nat} {c : Config} (hn : n ≤ 31) {k : BitVec w} {K : Key}
    (h : leBytes 32 K.toNat = leBytes n k.toNat ++ [c.padMarker] ++ List.replicate (31 - n) 0) : padKey c n k = K :=
  key_eq_of_leBytes_eq ((leBytes_padKey c hn k).trans h.symm)

/-- A 16-byte key and the 24-byte key `K16 ++ [0xF0] ++ zeros(7)` differ as padded Keys in byte 24, where the longer one has
its own `PAD_MARKER` and the shorter one a zero. -/
theorem padKey_ne_of_leBytes {k : BitVec 128} {l : BitVec 192}
    (h : leBytes 24 l.toNat = leBytes 16 k.toNat ++ [0xF0] ++ List.replicate 7 0) :
    padKey config 16 k ≠ padKey config 24 l := by
  intro hkl
  have hbytes : leBytes 16 k.toNat ++ [0xF0] ++ List.replicate 15 0 = leBytes 24 l.toNat ++ [0xF0] ++ List.replicate 7 0 :=
    calc _
      _ = leBytes 32 (padKey config 16 k).toNat := (leBytes_padKey config (by decide) k).symm
      _ = leBytes 32 (padKey config 24 l).toNat := by rw [hkl]
      _ = _ := leBytes_padKey config (by decide) l
  rw [h] at hbytes
  simp only [List.append_assoc, List.append_cancel_left_eq] at hbytes
  exact absurd hbytes (by decide)

/-- Settles O22: where the padded Key is the longer key both commands complete with it; at 24 bytes the padding is applied once
more. -/
theorem keyLengthEquivalence : Obligations.KeyLengthEquivalence := by
  refine ⟨fun k K s h => ?_, fun k K s h => ?_, fun k l s t u h ht hu => ?_, fun c k l K =>
    ⟨padKey_eq_of_leBytes (by decide), padKey_eq_of_leBytes (by decide)⟩⟩
  · rw [exec_construct128_eq, exec_construct256_eq, padKey_eq_of_leBytes (by decide) h]
  · rw [exec_construct192_eq, exec_construct256_eq, padKey_eq_of_leBytes (by decide) h]
  · cases (exec_construct128_eq k s).symm.trans ht
    cases (exec_construct192_eq l s).symm.trans hu
    exact padKey_ne_of_leBytes h

end Sys2Proof.Machine

/-! # The key schedule (42_key_schedule.md)

Which key bytes a key word holds, which recurrence the prekey words follow, and which chunk and which box give a round key. -/

namespace Sys2Proof.Machine

/-! ## The key words (R100) -/

/-- A 32-bit piece is the number its four bytes spell, all of them digits of the same quotient of the whole. -/
theorem toNat_word_eq_bytes {w : Nat} (v : BitVec w) (k : Nat) :
    (v.extractLsb' (32 * k) 32).toNat =
      (v.extractLsb' (8 * (4 * k)) 8).toNat + 256 * (v.extractLsb' (8 * (4 * k + 1)) 8).toNat +
        65536 * (v.extractLsb' (8 * (4 * k + 2)) 8).toNat + 16777216 * (v.extractLsb' (8 * (4 * k + 3)) 8).toNat := by
  have hbyte (j : Nat) : (v.extractLsb' (8 * (4 * k + j)) 8).toNat = v.toNat / 2 ^ (32 * k) / 2 ^ (8 * j) % 2 ^ 8 := by
    rw [BitVec.extractLsb'_toNat, Nat.shiftRight_eq_div_pow, Nat.div_div_eq_div_mul, ← Nat.pow_add]
    congr 3
    omega
  have hbyte0 := hbyte 0
  rw [Nat.add_zero] at hbyte0
  rw [hbyte0, hbyte 1, hbyte 2, hbyte 3, BitVec.extractLsb'_toNat, Nat.shiftRight_eq_div_pow]
  omega

/-- Settles O25: byte `j` of the Key is its bits `8j` to `8j+7`, and four of them make the word. -/
theorem keyWordsLittleEndian : Obligations.KeyWordsLittleEndian := by
  intro K k hk b0 b1 b2 b3 h0 h1 h2 h3
  rw [getElem?_leBytes_toNat _ _ _ (by omega)] at h0 h1 h2 h3
  cases h0
  cases h1
  cases h2
  cases h3
  exact toNat_word_eq_bytes K k

/-! ## The prekey recurrence (R101) -/

/-- R101 at word `j + 8` of a list, with the loop index `i`: the taps `w[i-8]`, `w[i-5]`, `w[i-3]`, `w[i-1]` stand at `j`,
`j + 3`, `j + 5`, `j + 7`. -/
def PrekeyAt (ws : List Word) (i j : Nat) : Prop :=
  ws[j + 8]?.getD 0 = prekey i (ws[j]?.getD 0) (ws[j + 3]?.getD 0) (ws[j + 5]?.getD 0) (ws[j + 7]?.getD 0)

theorem prekeyAt_cons (a : Word) (ws : List Word) (i j : Nat) : PrekeyAt (a :: ws) i (j + 1) ↔ PrekeyAt ws i j := Iff.rfl

/-- The words that `prekeysFrom` gives follow the recurrence behind the eight words it starts from. -/
theorem prekeyAt_prekeysFrom (n i : Nat) (a b c d e f g h : Word) (j : Nat) (hj : j < n) :
    PrekeyAt ([a, b, c, d, e, f, g, h] ++ prekeysFrom n i a b c d e f g h) (i + j) j := by
  induction n generalizing i a b c d e f g h j with
  | zero => exact absurd hj (Nat.not_lt_zero j)
  | succ n ih =>
    cases j with
    | zero => rfl
    | succ j =>
      have hstep := ih (i + 1) b c d e f g h (prekey i a d f h) j (Nat.lt_of_succ_lt_succ hj)
      rw [Nat.add_right_comm] at hstep
      exact (prekeyAt_cons a _ _ j).2 hstep

/-- Settles O26: the eight words `prekeysFrom` starts from are the key words. -/
theorem prekeyRecurrence : Obligations.PrekeyRecurrence := by
  refine fun K => ⟨length_prekeys K, ?_⟩
  rintro w rfl i hi
  have h : PrekeyAt ((List.range 8).map (keyWord K) ++ prekeys K) (0 + i) i :=
    prekeyAt_prekeysFrom 132 0 (keyWord K 0) (keyWord K 1) (keyWord K 2) (keyWord K 3) (keyWord K 4) (keyWord K 5)
      (keyWord K 6) (keyWord K 7) i hi
  rwa [Nat.zero_add, PrekeyAt, prekey, phi, zext32] at h

/-! ## Box index and round keys (R102 to R105) -/

/-- Settles O27: the 33 box indices. -/
theorem keyBoxTable : Obligations.KeyBoxTable := by
  unfold Obligations.KeyBoxTable
  decide

theorem roundKey_of_nibble {c : Config} (h : c.ksSboxMode = .nibble) (i : Nat) (chunk : Block) :
    roundKey c i chunk = subLayer c (kbox i) chunk := by
  rw [roundKey, h]

theorem roundKey_of_bitslice {c : Config} (h : c.ksSboxMode = .bitslice) (i : Nat) (chunk : Block) :
    roundKey c i chunk = subBitslice c (kbox i) chunk := by
  rw [roundKey, h]

/-- R105: entry `i` of the schedule is `RoundKey(i)` of chunk `i`. -/
theorem keySchedule_get_of_chunk {c : Config} {K : Key} {i : Fin 33} {chunk : Block}
    (h : (chunks (prekeys K))[i.val]? = some chunk) : (keySchedule c K).get i = roundKey c i.val chunk := by
  have hget := getElem?_roundKeys c K i
  rw [roundKeys, List.getElem?_mapIdx, h] at hget
  exact (Option.some.inj hget).symm

/-- Settles O28: the four words are chunk `i`, and the Config says which layer `RoundKey(i)` is. -/
theorem roundKeysFromChunks : Obligations.RoundKeysFromChunks := by
  intro c K i w0 w1 w2 w3 h0 h1 h2 h3
  rw [keySchedule_get_of_chunk (getElem?_chunks _ _ w0 w1 w2 w3 h0 h1 h2 h3)]
  exact ⟨fun hm => roundKey_of_nibble hm _ _, fun hm => roundKey_of_bitslice hm _ _⟩

end Sys2Proof.Machine

/-! # The S-box layers (43_substitution.md)

What the two layers do to a nibble and to a byte, when one undoes the other, and what the bit-sliced form has to do with them. -/

namespace Sys2Proof.Machine

/-! ## The layers nibble by nibble (R110, R111) -/

/-- Where every byte is looked up by R110's rule, every nibble goes through the table. -/
theorem nibOf_of_byteOf_eq_subByte {t : Nibble → Nibble} {A B : Block} (h : ∀ m < 16, byteOf A m = subByte t (byteOf B m))
    (n : Nat) (hn : n < 32) : nibOf A n = t (nibOf B n) := by
  rw [nibOf_eq, nibOf_eq, h (n / 2) (by omega)]
  obtain heven | hodd := Nat.mod_two_eq_zero_or_one n
  · rw [heven]
    exact subByte_low t _
  · rw [hodd]
    exact subByte_high t _

/-- R110, nibble by nibble. -/
theorem nibOf_subLayer (c : Config) (b : Fin 8) (B : Block) (n : Nat) (hn : n < 32) :
    nibOf (subLayer c b B) n = sboxRead c b (nibOf B n) :=
  nibOf_of_byteOf_eq_subByte (byteOf_subLayer c b B) n hn

/-- R111, nibble by nibble. -/
theorem nibOf_invSubLayer (c : Config) (b : Fin 8) (B : Block) (n : Nat) (hn : n < 32) :
    nibOf (invSubLayer c b B) n = sboxInvRead c b (nibOf B n) :=
  nibOf_of_byteOf_eq_subByte (byteOf_invSubLayer c b B) n hn

/-- Settles O33: the byte form is `subByte` written out. -/
theorem subLayerLanes : Obligations.SubLayerLanes := fun c b B =>
  ⟨nibOf_subLayer c b B, byteOf_subLayer c b B⟩

/-- Settles O34: the byte form is `subByte` written out. -/
theorem invSubLayerLanes : Obligations.InvSubLayerLanes := fun c b B =>
  ⟨nibOf_invSubLayer c b B, byteOf_invSubLayer c b B⟩

/-! ## One layer undoes the other (R112) -/

theorem invSubLayer_subLayer {c : Config} (h : c.Admitted) (b : Fin 8) (B : Block) :
    invSubLayer c b (subLayer c b B) = B := by
  apply block_ext_bytes
  intro m hm
  rw [byteOf_invSubLayer _ _ _ _ hm, byteOf_subLayer _ _ _ _ hm, subByte_inverse _ _ (sboxInvRead_sboxRead h b)]

theorem subLayer_invSubLayer {c : Config} (h : c.Admitted) (b : Fin 8) (B : Block) :
    subLayer c b (invSubLayer c b B) = B := by
  apply block_ext_bytes
  intro m hm
  rw [byteOf_subLayer _ _ _ _ hm, byteOf_invSubLayer _ _ _ _ hm, subByte_inverse _ _ (sboxRead_sboxInvRead h b)]

/-- Box 0 sends nibble 0 to 3, and the inverse of box 1 sends 3 to 14. -/
theorem invSubLayer_one_subLayer_zero_ne : invSubLayer config 1 (subLayer config 0 0) ≠ 0 := by
  intro h
  have hnib : sboxInvRead config 1 (sboxRead config 0 (nibOf 0 0)) = nibOf 0 0 := by
    rw [← nibOf_subLayer _ _ _ _ (by decide), ← nibOf_invSubLayer _ _ _ _ (by decide), h]
  exact absurd hnib (by decide)

/-- Settles O35: the unequal boxes are 0 and 1, on the zero Block. -/
theorem subLayerInverse : Obligations.SubLayerInverse :=
  ⟨fun _ b B h => ⟨invSubLayer_subLayer h b B, subLayer_invSubLayer h b B⟩, 0, 1, 0, by decide,
    invSubLayer_one_subLayer_zero_ne⟩

/-! ## The bit-sliced layer (R114) -/

theorem wordOf_subBitslice (c : Config) (b : Fin 8) (B : Block) {k : Nat} (hk : k < 4) :
    wordOf (subBitslice c b B) k = slicedWord c b B k :=
  match k, hk with
  | 0, _ => wordOf_blockOf_zero ..
  | 1, _ => wordOf_blockOf_one ..
  | 2, _ => wordOf_blockOf_two ..
  | 3, _ => wordOf_blockOf_three ..

/-- The value at position `j` is the one whose bits the four words have there. -/
theorem sliceOf_eq {B : Block} {j : Nat} {n : Nibble} (h : ∀ k < 4, n.getLsbD k = (wordOf B k).getLsbD j) :
    sliceOf B j = n :=
  BitVec.eq_of_getLsbD_eq fun k hk => (bit_sliceOf B j k hk).trans (h k hk).symm

/-- Settles O36: the four bits of the value make it the slice that `slicedWord` substitutes. -/
theorem bitslicePositions : Obligations.BitslicePositions := by
  intro c b B j n hj hn k hk
  rw [wordOf_subBitslice c b B hk, bit_slicedWord c b B k j hj, sliceOf_eq hn]

/-- The default `IP` gathers the value at position `j` of the four words into nibble `j`. -/
theorem nibOf_permute_ip (B : Block) {j : Nat} (hj : j < 32) : nibOf (permute config.ip B) j = sliceOf B j := by
  symm
  apply sliceOf_eq
  intro k hk
  have hip : (config.ip.get ⟨4 * j + k, by omega⟩).val = 32 * k + j := by
    rw [config_ip_get_val]
    dsimp only
    omega
  rw [bit_nibOf _ _ _ hk, bit_wordOf _ _ _ hj, bit_permute _ _ ⟨4 * j + k, by omega⟩, hip]

/-- The default `FP` puts bit `k` of nibble `j` back to position `j` of word `k`. -/
theorem bit_wordOf_permute_fp (B : Block) {k j : Nat} (hk : k < 4) (hj : j < 32) :
    (wordOf (permute config.fp B) k).getLsbD j = (nibOf B j).getLsbD k := by
  have hfp : (config.fp.get ⟨32 * k + j, by omega⟩).val = 4 * j + k := by
    rw [config_fp_get_val]
    dsimp only
    omega
  rw [bit_wordOf _ _ _ hj, bit_nibOf _ _ _ hk, bit_permute _ _ ⟨32 * k + j, by omega⟩, hfp]

/-- Settles O37: on both sides bit `j` of word `k` is bit `k` of the substituted slice `j`. -/
theorem bitsliceIsConjugatedSubLayer : Obligations.BitsliceIsConjugatedSubLayer := by
  intro b B
  apply block_ext_words
  intro k hk
  apply BitVec.eq_of_getLsbD_eq
  intro j hj
  calc (wordOf (subBitslice config b B) k).getLsbD j
    _ = (sboxRead config b (sliceOf B j)).getLsbD k := by
      rw [wordOf_subBitslice _ _ _ hk, bit_slicedWord _ _ _ _ _ hj]
    _ = (nibOf (subLayer config b (permute config.ip B)) j).getLsbD k := by
      rw [nibOf_subLayer _ _ _ _ hj, nibOf_permute_ip B hj]
    _ = (wordOf (permute config.fp (subLayer config b (permute config.ip B))) k).getLsbD j :=
      (bit_wordOf_permute_fp _ hk hj).symm

end Sys2Proof.Machine

/-! # The linear mixing transform (44_linear_mixing.md)

`LT` and `InvLT` are linear over XOR, they undo each other line by line, and a linear map is given by its XOR table. -/

namespace Sys2Proof.Machine

/-! ## Maps linear over XOR -/

/-- A map of Blocks that carries the XOR of two Blocks to the XOR of their images. -/
def XorLinear (f : Block → Block) : Prop := ∀ A B, f (A ^^^ B) = f A ^^^ f B

theorem XorLinear.map_zero {f : Block → Block} (hf : XorLinear f) : f 0#128 = 0#128 :=
  calc f 0#128
    _ = f (0#128 ^^^ 0#128) := by rw [BitVec.xor_self]
    _ = f 0#128 ^^^ f 0#128 := hf ..
    _ = 0#128 := BitVec.xor_self

/-- Every line of R120 is linear: a rotation, a shift or an XOR. -/
theorem lt_xorLinear : XorLinear lt := fun A B => by
  simp only [lt, ltWords, wordOf_xor, rotl_xor, shl_xor, ← blockOf_xor]
  ac_rfl

/-- Every line of R121 is linear: a rotation, a shift or an XOR. -/
theorem invLt_xorLinear : XorLinear invLt := fun A B => by
  simp only [invLt, invLtWords, wordOf_xor, rotr_xor, shl_xor, ← blockOf_xor]
  ac_rfl

/-! ## The words and the number of 1 bits (R120, R121) -/

/-- R120: `e_0` is the rule's example; R123 lists the seven 1 bits of its image. -/
theorem countP_bit_lt_unitBlock_zero :
    (List.range 128).countP (bit (lt (unitBlock 0))) = 7 ∧ (List.range 128).countP (bit (unitBlock 0)) = 1 := by decide

/-- Settles O38: `lt` is `blockOf` of the four words, and `e_0` is a Block whose number of 1 bits changes. -/
theorem mixingTransform : Obligations.MixingTransform := by
  refine ⟨fun B => ⟨wordOf_blockOf_zero .., wordOf_blockOf_one .., wordOf_blockOf_two .., wordOf_blockOf_three ..⟩,
    lt_xorLinear.map_zero, lt_xorLinear, unitBlock 0, ?_⟩
  obtain ⟨himage, hunit⟩ := countP_bit_lt_unitBlock_zero
  rw [himage, hunit]
  decide

/-- Settles O39: `invLt` is `blockOf` of the four words. -/
theorem inverseMixingTransform : Obligations.InverseMixingTransform :=
  ⟨fun _ => ⟨wordOf_blockOf_zero .., wordOf_blockOf_one .., wordOf_blockOf_two .., wordOf_blockOf_three ..⟩,
    invLt_xorLinear.map_zero, invLt_xorLinear⟩

/-! ## Each undoes the other (R122) -/

/-- A mixing line XORs two other words into a word; done twice, it leaves the word as it was. -/
theorem xor_line_twice (x y z : Word) : x ^^^ y ^^^ z ^^^ y ^^^ z = x := by
  rw [BitVec.xor_assoc x y z, BitVec.xor_assoc, BitVec.xor_assoc, BitVec.xor_self, BitVec.xor_zero]

/-- The lines of R121 undo the lines of R120, the last one first. -/
theorem invLt_lt (B : Block) : invLt (lt B) = B := by
  simp only [invLt, invLtWords, lt, ltWords, wordOf_blockOf_zero, wordOf_blockOf_one, wordOf_blockOf_two,
    wordOf_blockOf_three, rotr_rotl, xor_line_twice, Nat.reduceLeDiff, blockOf_wordOf]

/-- The lines of R120 undo the lines of R121, the last one first. -/
theorem lt_invLt (B : Block) : lt (invLt B) = B := by
  simp only [invLt, invLtWords, lt, ltWords, wordOf_blockOf_zero, wordOf_blockOf_one, wordOf_blockOf_two,
    wordOf_blockOf_three, rotl_rotr, xor_line_twice, Nat.reduceLeDiff, blockOf_wordOf]

/-- Settles O40: both orders, line by line. -/
theorem mixingInverse : Obligations.MixingInverse := fun B => ⟨invLt_lt B, lt_invLt B⟩

/-! ## The XOR table of a linear map (R123) -/

/-- The XOR of the Blocks `e_i` for the 1 bits `i` of `B` below `n`. -/
def xorOfUnits (B : Block) : Nat → Block
  | 0 => 0#128
  | n + 1 => xorOfUnits B n ^^^ if bit B n then unitBlock n else 0#128

theorem bit_xor (A B : Block) (j : Nat) : bit (A ^^^ B) j = (bit A j ^^ bit B j) := BitVec.getLsbD_xor

theorem bit_zero (j : Nat) : bit 0#128 j = false := BitVec.getLsbD_zero

theorem bit_unitBlock {i : Nat} (hi : i < 128) (j : Nat) : bit (unitBlock i) j = decide (i = j) :=
  calc bit (unitBlock i) j
    _ = (decide (i < 128) && decide (i = j)) := BitVec.getLsbD_twoPow i j
    _ = decide (i = j) := by rw [decide_eq_true hi, Bool.true_and]

theorem bit_xorOfUnits (B : Block) {n : Nat} (hn : n ≤ 128) (j : Nat) :
    bit (xorOfUnits B n) j = (decide (j < n) && bit B j) := by
  induction n with
  | zero => simp [xorOfUnits, bit_zero]
  | succ n ih =>
    rw [xorOfUnits, bit_xor, ih (by omega), apply_ite (bit · j), bit_unitBlock hn, bit_zero]
    obtain hlt | rfl | hgt := Nat.lt_trichotomy j n
    · simp [hlt, hlt.ne', Nat.lt_succ_of_lt hlt]
    · simp
    · simp [hgt.ne, Nat.not_lt_of_gt hgt, Nat.not_lt_of_ge (Nat.succ_le_of_lt hgt)]

/-- A Block is the XOR of the `e_i` for its 1 bits. -/
theorem xorOfUnits_all (B : Block) : xorOfUnits B 128 = B :=
  block_ext _ _ fun j hj => by simp [bit_xorOfUnits B le_rfl, hj]

/-- Row `j` of the table of a linear map, XORed up to column `n`, is bit `j` of the image of the Block those columns make. -/
theorem XorLinear.foldl_xorTable {f : Block → Block} (hf : XorLinear f) (B : Block) (j n : Nat) :
    (List.range n).foldl (fun acc i => acc ^^ (xorTable f j i && bit B i)) false = bit (f (xorOfUnits B n)) j := by
  induction n with
  | zero => rw [List.range_zero, List.foldl_nil, xorOfUnits, hf.map_zero, bit_zero]
  | succ n ih =>
    rw [List.range_succ, List.foldl_concat, ih, xorOfUnits, hf, bit_xor, xorTable]
    cases bit B n
    · simp [hf.map_zero, bit_zero]
    · simp

/-- R123: the table made from the images of the `e_i` gives the linear map back on every Block. -/
theorem XorLinear.applyXorTable_xorTable {f : Block → Block} (hf : XorLinear f) (B : Block) :
    applyXorTable (xorTable f) B = f B :=
  block_ext _ _ fun j hj =>
    calc bit (applyXorTable (xorTable f) B) j
      _ = (List.range 128).foldl (fun acc i => acc ^^ (xorTable f j i && bit B i)) false := by
        rw [applyXorTable, bit_ofBits _ _ hj, List.getD_eq_getElem?_getD, List.getElem?_map, List.getElem?_range hj,
          Option.map_some, Option.getD_some]
      _ = bit (f (xorOfUnits B 128)) j := hf.foldl_xorTable B j 128
      _ = bit (f B) j := by rw [xorOfUnits_all]

/-- Settles O41: both transforms are linear. -/
theorem mixingBitTable : Obligations.MixingBitTable := fun B =>
  ⟨lt_xorLinear.applyXorTable_xorTable B, invLt_xorLinear.applyXorTable_xorTable B⟩

end Sys2Proof.Machine

/-! # Encryption (45_encrypt.md)

The steps of an encryption round, the Block an ENCRYPT answers, and its 34 lines taken one a step of the core. -/

namespace Sys2Proof.Machine

/-! ## A round (R131) -/

/-- The box of round `r` is `r mod 8` (R131, R141). -/
theorem boxIndex_natCast {b : Fin 8} {n : Nat} (h : b.val = n % 8) : boxIndex n = b := by
  apply Fin.ext
  simp only [boxIndex]
  omega

/-- Settles O42: the box of the round is `b`, and the round is written with the two cases of the mixing. -/
theorem encRoundSteps : Obligations.EncRoundSteps := by
  intro c rk r b T hb
  rw [encRound, boxIndex_natCast hb]

/-! ## The answer of an ENCRYPT (R130) -/

/-- The 32 rounds of an ENCRYPT are all there are. -/
theorem encTemp_all (c : Config) (rk : Vector Block 33) (P : Block) :
    encTemp c rk P 32 = (List.finRange 32).foldl (fun T r => encRound c rk r T) (permute c.ip P) := by
  rw [encTemp, List.take_of_length_le List.length_finRange.le]

/-- Settles O44: with a key the 34 lines come to `finishCipher` of the rule's expression, without one to `raise`. -/
theorem encryptResult : Obligations.EncryptResult := by
  refine fun p s => ⟨fun hk => ?_, exec_encrypt_noKey p s⟩
  rw [← encTemp_all]
  exact ⟨_, exec_encrypt_eq p s hk, rfl, rfl, hk, rfl, rfl, rfl⟩

/-! ## The lines of a command taken one a step of the core (R26, R134) -/

theorem runSeq_of_fault {s : State} {f : Fault} (n : Nat) (h : advance s = .fault f) : runSeq (n + 1) s = .fault f := by
  rw [runSeq, h]

/-- While a command is in execution and no reset comes, the steps of the core are the lines of the sequencer. -/
theorem core_run_eq_runSeq {s : State} (n : Nat) (hr : s.resetLine = false)
    (hbusy : ∀ k < n, ∀ t, runSeq k s = .next t → t.seq ≠ .idle) : Sys2Proof.core.run n s = runSeq n s := by
  induction n generalizing s with
  | zero => rfl
  | succ n ih =>
    have hstep : step s = advance s := step_running s hr (hbusy 0 n.succ_pos s rfl)
    cases ha : advance s with
    | next t =>
      rw [core_run_next n (hstep.trans ha), runSeq_of_advance n ha]
      refine ih ((advance_frame ha).2.trans hr) fun k hk u hu => ?_
      exact hbusy (k + 1) (Nat.succ_lt_succ hk) u ((runSeq_of_advance k ha).trans hu)
    | fault f => exact (core_run_fault n (hstep.trans ha)).trans (runSeq_of_fault n ha).symm
    | refused r => exact absurd ha (advance_ne_refused s r)

theorem encPhase_ne_idle (n : Nat) : encPhase n ≠ .idle := by
  rw [encPhase]
  split <;> simp

/-- An ENCRYPT is in execution before each of its 34 lines. -/
theorem encrypt_busy (p : Block) (s : State) {n : Nat} (hn : n < 34) {t : State}
    (h : runSeq n (accept .encIp (.block p) s) = .next t) : t.seq ≠ .idle := by
  cases n with
  | zero =>
    cases h
    simp
  | succ n =>
    cases (runSeq_encRounds p s n (by omega)).symm.trans h
    exact encPhase_ne_idle n

/-- The core takes the lines of an ENCRYPT one a step. -/
theorem core_run_encrypt (p : Block) {s : State} (hr : s.resetLine = false) {n : Nat} (hn : n ≤ 34) :
    Sys2Proof.core.run n (accept .encIp (.block p) s) = runSeq n (accept .encIp (.block p) s) :=
  core_run_eq_runSeq n hr fun _ hk _ => encrypt_busy p s (by omega)

/-- The core takes the first line of an ENCRYPT and its first `n` rounds one a step, `TEMP` holding the round result. -/
theorem core_run_encRounds (p : Block) {s : State} (hr : s.resetLine = false) {n : Nat} (hn : n ≤ 32) :
    Sys2Proof.core.run (n + 1) (accept .encIp (.block p) s) =
      .next { s with temp := some (encTemp config s.rk p n), seq := encPhase n, operand := .none } :=
  (core_run_encrypt p hr (by omega)).trans (runSeq_encRounds p s n hn)

/-- Settles O48: the steps are the lines, of which `runSeq_encRounds` gives the first 33, and `exec` runs all 34. -/
theorem encryptSequencer : Obligations.EncryptSequencer := by
  refine fun p s hr hk => ⟨fun n h => ?_, core_run_encRounds p hr le_rfl, ?_⟩
  · rw [← encPhase_of_lt h]
    exact core_run_encRounds p hr h.le
  · rw [core_run_encrypt p hr le_rfl, exec, execEncrypt, withKeyValid_true s _ hk]

end Sys2Proof.Machine

/-! # Decryption (46_decrypt.md)

Scattering through a table, the steps of a decryption round, the Block a DECRYPT answers, its 34 lines taken one a step of the
core, and that the two cipher commands undo each other. -/

namespace Sys2Proof.Machine

/-! ## Scattering through a table (R140) -/

/-- Output bit `j` of a scatter is the input bit whose index is the first place of `j` in the table. -/
theorem bit_permuteScatter (T : BitTable) (B : Block) (j : Fin 128) :
    bit (permuteScatter T B) j.val = bit B (T.toList.idxOf j) := by
  rw [permuteScatter, bit_ofBits _ _ j.isLt]
  simp [List.getD_eq_getElem?_getD]

/-- Where `S` inverts `T`, the place of `j` in `T` is `S[j]`. -/
theorem idxOf_toList_of_inverse {S T : BitTable} (hTS : ∀ i, T.get (S.get i) = i) (hST : ∀ i, S.get (T.get i) = i)
    (j : Fin 128) : T.toList.idxOf j = (S.get j).val := by
  have hlt : T.toList.idxOf j < T.toList.length := List.idxOf_lt_length_of_mem <| by
    rw [← hTS j]
    exact Vector.mem_toList_iff.2 (Vector.getElem_mem (S.get j).isLt)
  have hget : T.get ⟨T.toList.idxOf j, by simpa using hlt⟩ = j := List.getElem_idxOf hlt
  have hplace := congrArg S.get hget
  rw [hST] at hplace
  exact congrArg Fin.val hplace

/-- C9: where `S` inverts `T`, scattering through `T` is gathering through `S`. -/
theorem permuteScatter_eq_permute {S T : BitTable} (hTS : ∀ i, T.get (S.get i) = i) (hST : ∀ i, S.get (T.get i) = i)
    (B : Block) : permuteScatter T B = permute S B :=
  block_ext _ _ fun j hj =>
    calc bit (permuteScatter T B) j
      _ = bit B (T.toList.idxOf ⟨j, hj⟩) := bit_permuteScatter T B ⟨j, hj⟩
      _ = bit B (S.get ⟨j, hj⟩).val := by rw [idxOf_toList_of_inverse hTS hST]
      _ = bit (permute S B) j := (bit_permute S B ⟨j, hj⟩).symm

/-- Settles O32: `IP` and `FP` invert each other by R87 (b). -/
theorem scatterIsInversePermutation : Obligations.ScatterIsInversePermutation := fun _ B hc =>
  ⟨permuteScatter_eq_permute hc.fpInverts.1 hc.fpInverts.2 B, permuteScatter_eq_permute hc.fpInverts.2 hc.fpInverts.1 B⟩

/-! ## A round (R141) -/

theorem decRound_encRound {c : Config} (hc : c.Admitted) (rk : Vector Block 33) (r : Fin 32) (T : Block) :
    decRound c rk r (encRound c rk r T) = T := by
  rw [decRound, encRound]
  by_cases hr : r.val < 31
  · simp [hr, invLt_lt, invSubLayer_subLayer hc]
  · simp [hr, invSubLayer_subLayer hc]

theorem encRound_decRound {c : Config} (hc : c.Admitted) (rk : Vector Block 33) (r : Fin 32) (T : Block) :
    encRound c rk r (decRound c rk r T) = T := by
  rw [encRound, decRound]
  by_cases hr : r.val < 31
  · simp [hr, lt_invLt, subLayer_invSubLayer hc]
  · simp [hr, subLayer_invSubLayer hc]

/-- Settles O43: the box of the round is `b`, and each step of the one round undoes the step of the other. -/
theorem decRoundUndoesEncRound : Obligations.DecRoundUndoesEncRound := by
  refine fun c rk r b T hc hb => ⟨?_, decRound_encRound hc rk r T, encRound_decRound hc rk r T⟩
  rw [decRound, boxIndex_natCast hb]

/-! ## The answer of a DECRYPT (R140) -/

/-- The 32 rounds of a DECRYPT are all there are, the last one first. -/
theorem decTemp_all (c : Config) (rk : Vector Block 33) (C : Block) :
    decTemp c rk C 32 = (List.finRange 32).foldr (fun r T => decRound c rk r T) (permute c.ip C ^^^ rk.get 32) := by
  rw [decTemp, List.take_of_length_le (by simp), List.foldl_reverse]

/-- Settles O45: with a key the 34 lines come to `finishCipher` of the rule's expression, without one to `raise`. -/
theorem decryptResult : Obligations.DecryptResult := by
  refine fun c s => ⟨fun hk => ?_, exec_decrypt_noKey c s⟩
  rw [← decTemp_all]
  exact ⟨_, exec_decrypt_eq c s hk, rfl, rfl, hk, rfl, rfl, rfl⟩

/-! ## The lines of a DECRYPT taken one a step of the core (R26, R144) -/

theorem decPhase_ne_idle (n : Nat) : decPhase n ≠ .idle := by
  rw [decPhase]
  split <;> simp

/-- A DECRYPT is in execution before each of its 34 lines. -/
theorem decrypt_busy (c : Block) (s : State) {n : Nat} (hn : n < 34) {t : State}
    (h : runSeq n (accept .decIp (.block c) s) = .next t) : t.seq ≠ .idle := by
  cases n with
  | zero =>
    cases h
    simp
  | succ n =>
    cases (runSeq_decRounds c s n (by omega)).symm.trans h
    exact decPhase_ne_idle n

/-- The core takes the lines of a DECRYPT one a step. -/
theorem core_run_decrypt (c : Block) {s : State} (hr : s.resetLine = false) {n : Nat} (hn : n ≤ 34) :
    Sys2Proof.core.run n (accept .decIp (.block c) s) = runSeq n (accept .decIp (.block c) s) :=
  core_run_eq_runSeq n hr fun _ hk _ => decrypt_busy c s (by omega)

/-- The core takes the first line of a DECRYPT and its first `n` rounds one a step, `TEMP` holding the round result. -/
theorem core_run_decRounds (c : Block) {s : State} (hr : s.resetLine = false) {n : Nat} (hn : n ≤ 32) :
    Sys2Proof.core.run (n + 1) (accept .decIp (.block c) s) =
      .next { s with temp := some (decTemp config s.rk c n), seq := decPhase n, operand := .none } :=
  (core_run_decrypt c hr (by omega)).trans (runSeq_decRounds c s n hn)

/-- Settles O49: the steps are the lines, of which `runSeq_decRounds` gives the first 33, and `exec` runs all 34. -/
theorem decryptSequencer : Obligations.DecryptSequencer := by
  refine fun c s hr hk => ⟨fun n h => ?_, core_run_decRounds c hr le_rfl, ?_⟩
  · rw [← decPhase_of_lt h]
    exact core_run_decRounds c hr h.le
  · rw [core_run_decrypt c hr le_rfl, exec, execDecrypt, withKeyValid_true s _ hk]

/-! ## Each cipher command undoes the other (R142) -/

/-- What a list of steps does in order is undone by the inverse steps in the opposite order. -/
theorem foldr_foldl_of_leftInverse {α β : Type} {f : β → α → β} {g : α → β → β} (h : ∀ a x, g a (f x a) = x) (l : List α)
    (x : β) : l.foldr g (l.foldl f x) = x := by
  induction l generalizing x with
  | nil => rfl
  | cons a l ih => rw [List.foldl_cons, List.foldr_cons, ih, h]

/-- What a list of steps does in the opposite order is undone by the inverse steps in order. -/
theorem foldl_foldr_of_rightInverse {α β : Type} {f : β → α → β} {g : α → β → β} (h : ∀ a x, f (g a x) a = x) (l : List α)
    (x : β) : l.foldl f (l.foldr g x) = x := by
  induction l with
  | nil => rfl
  | cons a l ih => rw [List.foldr_cons, List.foldl_cons, h, ih]

theorem decryptBlock_encryptBlock {c : Config} (hc : c.Admitted) (rk : Vector Block 33) (B : Block) :
    decryptBlock c rk (encryptBlock c rk B) = B := by
  have hrounds : decTemp c rk (encryptBlock c rk B) 32 = permute c.ip B := by
    rw [decTemp_all, encryptBlock, permute_permute_of_inverse hc.fpInverts.1, encTemp_all, BitVec.xor_assoc, BitVec.xor_self,
      BitVec.xor_zero, foldr_foldl_of_leftInverse fun r T => decRound_encRound hc rk r T]
  rw [decryptBlock, hrounds, permute_permute_of_inverse hc.fpInverts.2]

theorem encryptBlock_decryptBlock {c : Config} (hc : c.Admitted) (rk : Vector Block 33) (B : Block) :
    encryptBlock c rk (decryptBlock c rk B) = B := by
  have hrounds : encTemp c rk (decryptBlock c rk B) 32 = permute c.ip B ^^^ rk.get 32 := by
    rw [encTemp_all, decryptBlock, permute_permute_of_inverse hc.fpInverts.1, decTemp_all,
      foldl_foldr_of_rightInverse fun r T => encRound_decRound hc rk r T]
  rw [encryptBlock, hrounds, BitVec.xor_assoc, BitVec.xor_self, BitVec.xor_zero, permute_permute_of_inverse hc.fpInverts.2]

/-- With a key loaded, ENCRYPT answers OK_DATA and the bytes of `encryptBlock` (R130, R134). -/
theorem exec_encrypt_answer (p : Block) (s : State) (h : s.keyValid = true) :
    ∃ t, exec (.encrypt p) s = .next t ∧ t.respChan = s.respChan ++ 0x01 :: blockBytes (encryptBlock config s.rk p) :=
  ⟨_, exec_encrypt_eq p s h, rfl⟩

/-- With a key loaded, DECRYPT answers OK_DATA and the bytes of `decryptBlock` (R140, R144). -/
theorem exec_decrypt_answer (c : Block) (s : State) (h : s.keyValid = true) :
    ∃ t, exec (.decrypt c) s = .next t ∧ t.respChan = s.respChan ++ 0x01 :: blockBytes (decryptBlock config s.rk c) :=
  ⟨_, exec_decrypt_eq c s h, rfl⟩

/-- Settles O50: the second command's answer is the inverse of the first one's, under the round keys the two states share. -/
theorem cipherRoundTrip : Obligations.CipherRoundTrip := by
  refine ⟨fun c rk B hc => ⟨decryptBlock_encryptBlock hc rk B, encryptBlock_decryptBlock hc rk B⟩,
    fun B s t hs ht hrk => ⟨?_, ?_⟩⟩
  · obtain ⟨s', hexec, hresp⟩ := exec_encrypt_answer B s hs
    obtain ⟨t', hexec', hresp'⟩ := exec_decrypt_answer (encryptBlock config s.rk B) t ht
    rw [hrk, decryptBlock_encryptBlock config_admitted] at hresp'
    exact ⟨_, s', t', hexec, hresp, hexec', hresp'⟩
  · obtain ⟨s', hexec, hresp⟩ := exec_decrypt_answer B s hs
    obtain ⟨t', hexec', hresp'⟩ := exec_encrypt_answer (decryptBlock config s.rk B) t ht
    rw [hrk, encryptBlock_decryptBlock config_admitted] at hresp'
    exact ⟨_, s', t', hexec, hresp, hexec', hresp'⟩

end Sys2Proof.Machine

/-! # Errors (60_exceptions.md)

A rejected command is taken off the channel and answered with its status byte, and no other field of the state changes. -/

namespace Sys2Proof.Safety

open Machine

/-- In an idle core the error entry, the command consumed, writes the response channel and nothing else (R156). -/
theorem raise_consumed_of_idle (e : CmdError) {s : State} (rest : List Byte) (hs : s.seq = .idle) :
    raise e { s with cmdChan := rest } = { s with cmdChan := rest, respChan := s.respChan ++ [errorStatus e] } := by
  rw [raise_eq, ← hs]

/-- What the decoder rejects is consumed and answered with its status byte; every other field is left (R151, R152). -/
theorem step_eq_of_rejected {s : State} {e : CmdError} {rest : List Byte} (h : Ready s)
    (hd : decode s.cmdChan = .rejected e rest) :
    step s = .next { s with cmdChan := rest, respChan := s.respChan ++ [errorStatus e] } := by
  rw [step_of_rejected h hd, raise_consumed_of_idle e rest h.2]

/-- A cipher command without a key is consumed and answered NoKey; every other field is left (R153). -/
theorem step_eq_of_noKey {s : State} {i : Instr} {rest : List Byte} (h : Ready s) (hk : s.keyValid = false)
    (hi : ∃ b, i = .encrypt b ∨ i = .decrypt b) (hd : decode s.cmdChan = .command i rest) :
    step s = .next { s with cmdChan := rest, respChan := s.respChan ++ [errorStatus .noKey] } := by
  obtain ⟨-, -, hno⟩ := exec_cipher_answer hi
  rw [stepRunsDecodedCommand s i rest h hd, hno { s with cmdChan := rest } hk, raise_consumed_of_idle .noKey rest h.2]

/-- Settles O15: with `op = 0` the command byte is its own `klen`, and the decoder rejects an unsupported one (R62, R66). -/
theorem invalidKeyLengthRejected : Obligations.InvalidKeyLengthRejected := by
  intro s cmd payload rest hs hc hop hn hlen
  have hle : cmd.toNat ≤ 0x3F := (opField_eq_zero_iff cmd).1 hop
  have hklen : (cmd.extractLsb' 0 6).toNat = cmd.toNat := (klenField_toNat cmd).trans (Nat.mod_eq_of_lt (by omega))
  rw [hklen] at hn hlen
  exact step_eq_of_rejected hs (hc ▸ payloadLengthByCommandByte.2 cmd payload rest hle hn hlen)

/-- Settles O16: outside the CONSTRUCTs only 0x40 and 0x80 are defined, and a reserved byte has no payload (R62, R66). -/
theorem illegalCommandRejected : Obligations.IllegalCommandRejected := by
  intro s cmd rest hs hc hrange
  have hlt : 0x3F < cmd.toNat := by omega
  have he : cmd ≠ 0x40 := by rintro rfl; revert hrange; decide
  have hd : cmd ≠ 0x80 := by rintro rfl; revert hrange; decide
  have hrej : decode s.cmdChan = .rejected .illegalCommand rest :=
    decode_eq_rejected_iff.2 ⟨cmd, [], hc, (plen_of_reserved hlt he hd).symm, interpret_reserved hlt he hd []⟩
  exact step_eq_of_rejected hs hrej

/-- Settles O17: a cipher command without a key raises NoKey, and no step but reset clears `KEY_VALID`. -/
theorem noKeyRejected : Obligations.NoKeyRejected := by
  constructor
  · rintro s cmd payload rest hs hk (rfl | rfl) hlen hc
    · exact step_eq_of_noKey hs hk ⟨_, .inl rfl⟩
        (decode_eq_command_iff.2 ⟨0x40, payload, hc, hlen, interpret_encrypt payload⟩)
    · exact step_eq_of_noKey hs hk ⟨_, .inr rfl⟩
        (decode_eq_command_iff.2 ⟨0x80, payload, hc, hlen, interpret_decrypt payload⟩)
  · intro s t hk hr hst
    obtain ⟨-, ht⟩ | same := step_keyRegs hst hr
    · exact ht
    · exact same.keyValid.trans hk

end Sys2Proof.Safety

/-! # Reset and waiting (70_reset_and_hazards.md)

What a reset leaves, and how many steps the core takes at most until it waits. -/

namespace Sys2Proof.Safety

open Machine

/-- Settles O52: a pending reset is the next step, and the reset state is quiescent. -/
theorem resetAtAnyMoment : Obligations.ResetAtAnyMoment := fun s =>
  ⟨.reset, step_reset (applyInput .reset s) rfl, rfl, rfl, rfl, rfl, rfl, rfl, step_eq_quiescent ⟨rfl, rfl, rfl⟩⟩

/-! ## The lines left of the running command (R93, R134, R144) -/

/-- How many lines of the sequencer the command in a phase still has to run. -/
def linesLeft : Seq → Nat
  | .idle => 0
  | .ks | .encFinal | .decFinal => 1
  | .encIp | .decIp => 34
  | .encRound r => 33 - r.val
  | .decRound r => r.val + 2

theorem linesLeft_le (q : Seq) : linesLeft q ≤ 34 := by
  cases q <;> simp only [linesLeft] <;> omega

theorem linesLeft_seqAfterEnc (r : Fin 32) : linesLeft (seqAfterEnc r) + 1 = linesLeft (.encRound r) := by
  rw [seqAfterEnc]
  split <;> simp only [linesLeft] <;> omega

theorem linesLeft_seqAfterDec (r : Fin 32) : linesLeft (seqAfterDec r) + 1 = linesLeft (.decRound r) := by
  rw [seqAfterDec]
  split <;> simp only [linesLeft] <;> omega

/-- A line of a running command is one line less to run. -/
theorem advance_linesLeft {s t : State} (h : advance s = .next t) (hs : s.seq ≠ .idle) :
    linesLeft t.seq + 1 = linesLeft s.seq := by
  obtain ⟨hi, -⟩ | ⟨_, hq, -, rfl⟩ | ⟨_, hq, -, rfl⟩ | ⟨r, _, hq, -, rfl⟩ | ⟨_, hq, -, rfl⟩ | ⟨_, hq, -, rfl⟩ |
    ⟨r, _, hq, -, rfl⟩ | ⟨_, hq, -, rfl⟩ := advance_cases h
  · exact absurd hi hs
  all_goals rw [hq]
  · rfl
  · rfl
  · exact linesLeft_seqAfterEnc r
  · rfl
  · rfl
  · exact linesLeft_seqAfterDec r
  · rfl

/-! ## The steps left until the core waits (R179, R180) -/

/-- How many steps the core still takes at most: a pending reset is one step, and otherwise there are the lines left of the running
command and at most one step a byte of the channel. -/
def stepsLeft (s : State) : Nat := if s.resetLine then 1 else linesLeft s.seq + s.cmdChan.length

theorem stepsLeft_of_reset {s : State} (hr : s.resetLine = true) : stepsLeft s = 1 := if_pos hr

theorem stepsLeft_of_noReset {s : State} (hr : s.resetLine = false) :
    stepsLeft s = linesLeft s.seq + s.cmdChan.length := by
  simp [stepsLeft, hr]

theorem stepsLeft_of_ready {s : State} (h : Ready s) : stepsLeft s = s.cmdChan.length := by
  rw [stepsLeft_of_noReset h.1, h.2, linesLeft, Nat.zero_add]

theorem stepsLeft_le (s : State) : stepsLeft s ≤ s.cmdChan.length + 34 := by
  have := linesLeft_le s.seq
  rw [stepsLeft]
  split <;> omega

/-- A command has run to its end when its step is over (R48), and leaves the reset input alone. -/
theorem ready_of_exec {i : Instr} {s t : State} (h : exec i s = .next t) (hr : s.resetLine = false) : Ready t := by
  obtain ⟨-, -, k32, rfl⟩ | ⟨-, ⟨-, rfl⟩ | ⟨-, out, rfl⟩⟩ := exec_cases h <;> exact ⟨hr, rfl⟩

/-- What the decoder takes off the channel, as a command or as a rejected one, is at least the command byte. -/
theorem length_lt_of_decode {bs rest : List Byte}
    (h : (∃ i, decode bs = .command i rest) ∨ ∃ e, decode bs = .rejected e rest) : rest.length < bs.length := by
  have hbs : ∃ cmd payload, bs = cmd :: (payload ++ rest) := by
    obtain ⟨i, h⟩ | ⟨e, h⟩ := h
    · obtain ⟨cmd, payload, hbs, -⟩ := decode_eq_command_iff.1 h
      exact ⟨cmd, payload, hbs⟩
    · obtain ⟨cmd, payload, hbs, -⟩ := decode_eq_rejected_iff.1 h
      exact ⟨cmd, payload, hbs⟩
  obtain ⟨cmd, payload, rfl⟩ := hbs
  simp only [List.length_cons, List.length_append]
  omega

/-- Every step leaves fewer steps to take. -/
theorem stepsLeft_lt_of_step {s t : State} (h : step s = .next t) : stepsLeft t < stepsLeft s := by
  obtain ⟨hr, rfl⟩ | ⟨hr, hs, i, rest, hd, he⟩ | ⟨hr, hs, e, rest, hd, rfl⟩ | ⟨hr, hs, ha⟩ := step_cases h
  · rw [stepsLeft_of_reset hr]
    decide
  · rw [stepsLeft_of_ready (ready_of_exec he hr), stepsLeft_of_ready ⟨hr, hs⟩, exec_cmdChan he]
    exact length_lt_of_decode (.inl ⟨i, hd⟩)
  · rw [stepsLeft_of_ready (s := raise e { s with cmdChan := rest }) ⟨hr, rfl⟩, stepsLeft_of_ready ⟨hr, hs⟩]
    exact length_lt_of_decode (.inr ⟨e, hd⟩)
  · obtain ⟨hc, hrt⟩ := advance_frame ha
    rw [stepsLeft_of_noReset (hrt.trans hr), stepsLeft_of_noReset hr, hc, ← advance_linesLeft ha hs]
    omega

/-- A core of the invariant that does not wait steps to one with fewer steps left, so it comes to wait within them. -/
theorem Inv.settles {s : State} (h : Inv s) :
    ∃ n t, n ≤ stepsLeft s ∧ Sys2Proof.core.run n s = .next t ∧ (Quiescent t ∨ Waiting t) := by
  obtain hq | hw | ⟨u, hst⟩ := h.waits_or_steps
  · exact ⟨0, s, Nat.zero_le _, rfl, .inl hq⟩
  · exact ⟨0, s, Nat.zero_le _, rfl, .inr hw⟩
  · have hlt := stepsLeft_lt_of_step hst
    obtain ⟨n, t, hn, hrun, ht⟩ := Inv.settles (stepKeepsInv s u h hst)
    exact ⟨n + 1, t, by omega, (core_run_next n hst).trans hrun, ht⟩
termination_by stepsLeft s

/-- Settles O59: the steps left are at most the bound. -/
theorem coreSettles : Obligations.CoreSettles := by
  intro s h
  obtain ⟨n, t, hn, hrun, ht⟩ := h.settles
  exact ⟨n, t, hn.trans (stepsLeft_le s), hrun, ht⟩

end Sys2Proof.Safety
